-- ==== Sys2Proof/Word.lean ====
section
/-! DEFINITION. The word type of the hardware and its register numbers.

Rule R6 (spec/00_scope.md): a Word is 32 bits, bit 0 the least significant, read as a signed two's
complement integer unless a rule says unsigned. Rule R10 (spec/10_state.md): a register number is
always a 3-bit instruction field, so every register number an instruction can form is valid. -/

namespace Sys2Proof

/-- A Word (R6, R9): register, memory word, instruction word and latch data field alike. -/
abbrev Word := BitVec 32

/-- A register number, 0 to 7 (R10). -/
abbrev Reg := BitVec 3

end Sys2Proof
end

