-- ==== Sys2Proof/Config.lean ====
section
/-! DEFINITION. The fixed parameters of the hardware (rule R5 of spec/00_scope.md) and the two open
parameters of its host interface (decision D32 of spec/92_eei_decisions.md). -/

namespace Sys2Proof

/-- `MEM_WORDS` of R5: the number of Words in each memory, hence the bound of every fetch address,
data address and image length (R36, R153). -/
def Config.memWords : Nat := 65536

/-- Which words of `dmem` the termination report lists (R150): the two values that decision D32
allows for the open parameter `reportWords`. -/
inductive ReportWords where
  /-- only the words the image supplied -/
  | numMemory
  /-- all 65536 words -/
  | all
  deriving DecidableEq, Repr, Inhabited

/-- The open parameter `reportWords` (R150, D32). The spec fixes no value, so it has no body. -/
opaque Config.reportWords : ReportWords

/-- The open parameter `traceCycleOrigin` (R151, D32): 0 or 1, the number of the trace block printed
before the first tick. The spec fixes no value, so it has no body. -/
opaque Config.traceCycleOrigin : Fin 2

end Sys2Proof
end

