-- ==== Sys2Proof/Syntax.lean ====
section
/-! DEFINITION. The instruction set: one constructor per row of spec/opcode_table.json.

Every bit of the encoding is a field of its constructor, the ignored bits (rule R61 of
spec/30_encoding.md) among them: they have no architectural effect, but the latches carry them, and
the hazard unit compares bits 21:16 of every IF/ID occupant (R116), so two words that differ only in
ignored bits are different occupants. -/

namespace Sys2Proof

/-- The eight mnemonics of R57. -/
inductive Mnemonic where
  | add | nand | lw | sw | beq | jalr | halt | noop
  deriving DecidableEq, Repr

/-- The eight instructions (R50, R56). Field widths are the widths of the encoding's fields, so every
term is an encodable instruction. -/
inductive Instr where
  /-- ADD (R70): `regA`, `regB` sources, ignored bits 15:3, destination `dest`. -/
  | add (regA regB : Reg) (ignored : BitVec 13) (dest : Reg)
  /-- NAND (R71): fields as ADD. -/
  | nand (regA regB : Reg) (ignored : BitVec 13) (dest : Reg)
  /-- LW (R75): base `regA`, destination `regB`, signed 16-bit `offset`. -/
  | lw (regA regB : Reg) (offset : BitVec 16)
  /-- SW (R76): base `regA`, stored register `regB`, signed 16-bit `offset`. -/
  | sw (regA regB : Reg) (offset : BitVec 16)
  /-- BEQ (R80): compared registers `regA`, `regB`, signed 16-bit `offset`. -/
  | beq (regA regB : Reg) (offset : BitVec 16)
  /-- JALR (R81): register fields, ignored bits 15:0. -/
  | jalr (regA regB : Reg) (ignored : BitVec 16)
  /-- HALT (R85): ignored bits 21:0. -/
  | halt (ignored : BitVec 22)
  /-- NOOP (R86): ignored bits 21:0. -/
  | noop (ignored : BitVec 22)
  deriving DecidableEq, Repr

end Sys2Proof
end

