-- ==== Sys2Proof/WellFormed.lean ====
section
/-! DEFINITION. What is well formed: a word that names an instruction, and a program image.

`Instr` itself needs no check: each of its fields has exactly the width of its encoding field, so an
instruction that cannot be encoded cannot be written. What can be ill formed is a Word offered as an
instruction (rule R60 of spec/30_encoding.md) and an image offered to the loader (rules R152 and R153
of spec/48_run_loop.md). -/

namespace Sys2Proof

/-- A Word names an instruction exactly when its bits 31:25 are all zero (R51, R60). -/
def wellFormedWord (w : Word) : Bool := w.extractLsb' 25 7 == 0#7

/-- One line of an image as the host's text reader parsed it: the integer it holds, or `none` where
it does not parse as an integer (R152, R153). -/
abbrev ImageLine := Option Int

/-- A line is well formed when it is an integer that fits a Word (R152, decision D26). -/
def wellFormedLine : ImageLine → Bool
  | none => false
  | some v => decide (-2147483648 ≤ v) && decide (v ≤ 2147483647)

/-- An image is well formed when every line is and it has at most 65536 of them (R153). -/
def wellFormedImage (lines : List ImageLine) : Bool :=
  lines.all wellFormedLine && decide (lines.length ≤ Config.memWords)

end Sys2Proof
end

