-- ==== Sys2Proof/Decode.lean ====
section
/-! DEFINITION. The decoder, a total function on Words, and after it the encoder.

The five accessors are the decoder functions of rules R51 to R55 (spec/30_encoding.md); every unit of
the machine looks at an instruction word through them and `op` only (R50). -/

namespace Sys2Proof

/-- `opcode(w) = w >>s 22` (R51): an integer from -512 to 511. -/
def opcode (w : Word) : Int := (w.sshiftRight 22).toInt

/-- `regA(w) = w[21:19]` (R52). -/
def regA (w : Word) : Reg := w.extractLsb' 19 3

/-- `regB(w) = w[18:16]` (R53). -/
def regB (w : Word) : Reg := w.extractLsb' 16 3

/-- `sext_16` (R6). -/
def signExtend16 (v : BitVec 16) : Word := v.signExtend 32

/-- `immediateField(w) = sext_16(w[15:0])` (R54). -/
def immediateField (w : Word) : Word := signExtend16 (w.extractLsb' 0 16)

/-- `destField(w) = w[2:0]` (R55). -/
def destField (w : Word) : Reg := w.extractLsb' 0 3

/-- The opcode map (R57), the one table of opcode numbers (decision D1). -/
def opcodeNumber : Mnemonic → BitVec 3
  | .add => 0
  | .nand => 1
  | .lw => 2
  | .sw => 3
  | .beq => 4
  | .jalr => 5
  | .halt => 6
  | .noop => 7

/-- The rows of the opcode map, in its order. -/
def mnemonics : List Mnemonic := [.add, .nand, .lw, .sw, .beq, .jalr, .halt, .noop]

/-- `op(w)` (R58): the mnemonic whose number is `opcode(w)`; `none` is the spec's `ILLEGAL`. -/
def op (w : Word) : Option Mnemonic :=
  mnemonics.find? fun m => decide (opcode w = (opcodeNumber m).toNat)

/-- `NOOPWORD` (R59). -/
def noopWord : Word := 0x01C00000#32

/-- `HALTWORD` (R59). -/
def haltWord : Word := 0x01800000#32

/-- Why a Word is no instruction. -/
inductive DecodeError where
  /-- bits 31:25 are not all zero: `op(w) = ILLEGAL` (R60) -/
  | illegalOpcode (w : Word)
  deriving DecidableEq, Repr

/-- The decoder on a whole Word: operands by opcode as R56 gives them, the ignored bits (R61) kept;
an illegal word is rejected by name (R60). -/
def decode (w : Word) : Except DecodeError Instr :=
  match op w with
  | some .add => .ok (.add (regA w) (regB w) (w.extractLsb' 3 13) (destField w))
  | some .nand => .ok (.nand (regA w) (regB w) (w.extractLsb' 3 13) (destField w))
  | some .lw => .ok (.lw (regA w) (regB w) (w.extractLsb' 0 16))
  | some .sw => .ok (.sw (regA w) (regB w) (w.extractLsb' 0 16))
  | some .beq => .ok (.beq (regA w) (regB w) (w.extractLsb' 0 16))
  | some .jalr => .ok (.jalr (regA w) (regB w) (w.extractLsb' 0 16))
  | some .halt => .ok (.halt (w.extractLsb' 0 22))
  | some .noop => .ok (.noop (w.extractLsb' 0 22))
  | none => .error (.illegalOpcode w)

/-- The instruction the decoder reads from an opcode-table row's `nbits` bits `w`: one Word, whose
bits from `nbits` up are zero. -/
def decodeTableWord (nbits w : Nat) : Option Instr :=
  match decode (BitVec.ofNat 32 (w % 2 ^ nbits)) with
  | .ok i => some i
  | .error _ => none

/-- The mnemonic of an instruction. -/
def Instr.mnemonic : Instr → Mnemonic
  | .add .. => .add
  | .nand .. => .nand
  | .lw .. => .lw
  | .sw .. => .sw
  | .beq .. => .beq
  | .jalr .. => .jalr
  | .halt .. => .halt
  | .noop .. => .noop

/-- The layout of R50: bits 31:25 zero, opcode in 24:22, the form's fields below. -/
def layout (m : Mnemonic) (fields : BitVec 22) : Word := 0#7 ++ opcodeNumber m ++ fields

/-- The fields of a form with two register fields: `regA` in 21:19, `regB` in 18:16 (R50). -/
def registerFields (a b : Reg) (low : BitVec 16) : BitVec 22 := a ++ b ++ low

/-- The encoder, from the layout table of R50 and the opcode map of R57. -/
def encode : Instr → Word
  | .add a b ignored dest => layout .add (registerFields a b (ignored ++ dest))
  | .nand a b ignored dest => layout .nand (registerFields a b (ignored ++ dest))
  | .lw a b offset => layout .lw (registerFields a b offset)
  | .sw a b offset => layout .sw (registerFields a b offset)
  | .beq a b offset => layout .beq (registerFields a b offset)
  | .jalr a b ignored => layout .jalr (registerFields a b ignored)
  | .halt ignored => layout .halt ignored
  | .noop ignored => layout .noop ignored

end Sys2Proof
end

