-- ==== Sys2Proof/Machine/State.lean ====
section
/-! DEFINITION. The snapshot: everything the spec gives the machine, as plain data, and its value at
reset.

Spec: spec/10_state.md. The state is one snapshot, "the full latch+architecture snapshot" (R9, R90):
the architectural state (R10 to R15), the five pipeline latches (R16 to R21) and the two bookkeeping
elements (R23, R24). There are no flags (R26) and no control, status or special registers (R27). -/

namespace Sys2Proof.Machine

/-- The three hardware faults (R160), each with the value it records. The machine TAKES a fault: it
writes it into `status` and holds (R167), so these values stand in `State.status`; no step answers
`Host.Outcome.fault`, because the spec says what the state is after every fault. -/
inductive Fault where
  /-- An illegal word about to retire; records the word. Raised by the prologue of the tick that
  starts with it in MEM/WB (R161). Safe: the spec's own fault. -/
  | illegalOpcode (w : Word)
  /-- An LW or SW whose effective address is outside 0 to 65535; records the address. Raised by the
  MEM stage (R163). Safe: the spec's own fault. -/
  | dataAddressOutOfBounds (a : Word)
  /-- A fetch address outside 0 to 65535; records the address. Raised by the IF stage of any applied
  tick (R162). Safe: the spec's own fault. -/
  | pcOutOfBounds (a : Word)
  deriving DecidableEq, Repr

/-- Why an instruction has no meaning in this model. -/
inductive Refusal where
  /-- An instruction that has not been given its meaning. Raised by an arm of `exec` only; no arm
  raises it now. Safe: the model stops where the hardware goes on. -/
  | notModelled (mnemonic : String)
  deriving DecidableEq, Repr

/-- The run status (R24). -/
inductive Status where
  /-- ticks are applied -/
  | running
  /-- a HALT reached MEM/WB (R146); never left -/
  | halted
  /-- a fault was raised (R167); never left -/
  | faulted (f : Fault)
  deriving DecidableEq, Repr

/-- The eight general registers `x[0]` to `x[7]` (R10), register 0 an ordinary one (R11). -/
abbrev Registers := Vector Word 8

/-- A memory (R14, R15): the listed words by rising word address; what an unlisted address reads as
is `Memory.unlisted`. The cells are Words, the addressable unit (R31): the hardware has no bytes
(R32). -/
abbrev Memory := List (Nat × Word)

/-- Latch IF/ID (R17). -/
structure IfId where
  instruction : Word
  pcPlus1 : Word
  deriving DecidableEq, Repr

/-- Latch ID/EX (R18). -/
structure IdEx where
  instruction : Word
  pcPlus1 : Word
  readRegA : Word
  readRegB : Word
  offset : Word
  deriving DecidableEq, Repr

/-- Latch EX/MEM (R19). -/
structure ExMem where
  instruction : Word
  branchTarget : Word
  aluResult : Word
  readRegB : Word
  deriving DecidableEq, Repr

/-- Latch MEM/WB (R20). -/
structure MemWb where
  instruction : Word
  writeData : Word
  deriving DecidableEq, Repr

/-- The bookkeeping latch WB/END (R21), the third forwarding source. -/
structure WbEnd where
  instruction : Word
  writeData : Word
  deriving DecidableEq, Repr

/-- The snapshot. -/
structure State where
  /-- general registers (R10) -/
  x : Registers
  /-- program counter: word address of the next instruction to fetch (R12) -/
  pc : Word
  /-- instruction memory (R14) -/
  imem : Memory
  /-- data memory (R15) -/
  dmem : Memory
  /-- IF/ID (R17) -/
  ifid : IfId
  /-- ID/EX (R18) -/
  idex : IdEx
  /-- EX/MEM (R19) -/
  exmem : ExMem
  /-- MEM/WB (R20) -/
  memwb : MemWb
  /-- WB/END (R21) -/
  wbend : WbEnd
  /-- ticks applied (R23), of no bounded width -/
  cycles : Nat
  /-- run status (R24) -/
  status : Status
  deriving DecidableEq, Repr

/-- What an instruction, a stage or a tick answers. -/
abbrev Result := Host.Outcome State Fault Refusal

/-- The reset snapshot (R28, R180) with no image: an empty image is legal (R153), and every word
beyond the image is 0. `Sys2Proof.Machine.bootState` is the same snapshot with an image loaded. -/
def State.reset : State :=
  { x := Vector.replicate 8 0#32
    pc := 0#32
    imem := []
    dmem := []
    ifid := { instruction := noopWord, pcPlus1 := 0#32 }
    idex := { instruction := noopWord, pcPlus1 := 0#32, readRegA := 0#32, readRegB := 0#32,
              offset := 0#32 }
    exmem := { instruction := noopWord, branchTarget := 0#32, aluResult := 0#32, readRegB := 0#32 }
    memwb := { instruction := noopWord, writeData := 0#32 }
    wbend := { instruction := noopWord, writeData := 0#32 }
    cycles := 0
    status := .running }

end Sys2Proof.Machine
end

