-- ==== Sys2Proof/Machine/Ops.lean ====
section
/-! DEFINITION. The named operations over memory, registers and run status.

Memory: spec/20_memory.md (R30 to R37). Registers: R10, R11. Taking a fault, the hardware's only
exception: R167. There is no return from it: no trap-return instruction and no nesting (R169), and
`Halted` and `Faulted` are never left (R24). -/

namespace Sys2Proof.Machine

/-! ### Memory -/

/-- What an address with no listed word reads as: 0, the reset contents of every word beyond the
image (R28, R35). -/
def Memory.unlisted : Word := 0#32

/-- The Word at address `a` (`IMemRead`, `MemRead` of R7). -/
def Memory.read : Memory → Nat → Word
  | [], _ => Memory.unlisted
  | (k, w) :: m, a => if k = a then w else Memory.read m a

/-- The memory whose Word at address `a` is `v`, every other Word as before (`MemWrite` of R7, R103),
in the canonical form: a word equal to what an unlisted address reads as is not listed. -/
def Memory.write : Memory → Nat → Word → Memory
  | [], a, v => if v = Memory.unlisted then [] else [(a, v)]
  | (k, w) :: m, a, v =>
    if a < k then
      if v = Memory.unlisted then (k, w) :: m else (a, v) :: (k, w) :: m
    else if a = k then
      if v = Memory.unlisted then m else (a, v) :: m
    else
      (k, w) :: Memory.write m a v

/-- The canonical form: addresses strictly rising and inside the memory, no listed word equal to what
an unlisted address reads as. -/
def Memory.wf (m : Memory) : Bool :=
  decide (m.Pairwise fun p q => p.1 < q.1) &&
    m.all fun c => decide (c.1 < Config.memWords) && decide (c.2 ≠ Memory.unlisted)

/-- The bounds test of R36 on an address, read as a signed Word: `0 <= a <= 65535`. Used for fetch
addresses and data addresses alike; no address is truncated or wrapped. -/
def inBounds (a : Word) : Bool := decide (0 ≤ a.toInt) && decide (a.toInt < Config.memWords)

/-- The memory index an in-bounds address names. -/
def address (a : Word) : Nat := a.toNat

/-! ### Registers -/

/-- `x[r]` (R7), register 0 like any other (R11). -/
def readReg (x : Registers) (r : Reg) : Word := x[r.toNat]'r.isLt

/-- `x[r] <- v` (R7), register 0 like any other (R11). -/
def writeReg (x : Registers) (r : Reg) (v : Word) : Registers := x.set r.toNat v r.isLt

/-! ### Ending the run, counting a tick -/

/-- Taking a fault, `raise F(info)` (R7, R167): no element of the snapshot changes but `status`. -/
def State.raise (s : State) (f : Fault) : State := { s with status := .faulted f }

/-- Ending the run successfully (R146): no element of the snapshot changes but `status`. -/
def State.halt (s : State) : State := { s with status := .halted }

/-- Counting an applied tick (R23). -/
def State.counted (s : State) : State := { s with cycles := s.cycles + 1 }

/-- The cause code of a fault, the `faulted` output of R156 (R160). -/
def Fault.code : Fault → Nat
  | .illegalOpcode _ => 1
  | .dataAddressOutOfBounds _ => 2
  | .pcOutOfBounds _ => 3

/-- The value a fault records (R160). -/
def Fault.info : Fault → Word
  | .illegalOpcode w => w
  | .dataAddressOutOfBounds a => a
  | .pcOutOfBounds a => a

/-- The `halted` output of R156. -/
def State.haltedOutput (s : State) : Bool := decide (s.status = .halted)

/-- The `faulted` output of R156, with its cause code. -/
def State.faultedOutput (s : State) : Option Nat :=
  match s.status with
  | .faulted f => some f.code
  | _ => none

end Sys2Proof.Machine
end

