-- ==== Sys2Proof/Machine/Flags.lean ====
section
/-! DEFINITION. Flags: the hardware has none.

R26 (spec/10_state.md): no flags, condition codes or predicate registers, and no instruction sets or
reads a carry, overflow, zero or sign flag. The only recorded comparison outcome is the taken
indication: `aluResult = 0` on a BEQ in EX/MEM (R19, R136), which lives one tick and is read by the
fetch of the next tick. It is a function of the latch, written here once. -/

namespace Sys2Proof.Machine

/-- What BEQ's comparison latches as `aluResult` (R98, R136): `(effB - effA) mod 2^32`. -/
def branchDifference (effA effB : Word) : Word := effB - effA

/-- The taken indication of a latched comparison: the difference is zero (R136). -/
def isTaken (difference : Word) : Bool := difference == 0#32

/-- EX/MEM holds a resolved-taken BEQ (R94, R136). -/
def ExMem.takenBranch (l : ExMem) : Bool :=
  decide (op l.instruction = some .beq) && isTaken l.aluResult

end Sys2Proof.Machine
end

