-- ==== Sys2Proof/Machine/Operands.lean ====
section
/-! DEFINITION. Operand forms: the forwarding unit (spec/46_forwarding_unit.md) and the operand values
of the instruction in ID/EX, the immediate operand ID latches (R95), and the one addressing mode, base
register plus sign-extended 16-bit displacement (R43, R77). -/

namespace Sys2Proof.Machine

/-- `IsSource(w)` (R126): ADD, NAND and LW produce a register result. -/
def isSource (w : Word) : Bool :=
  decide (op w = some .add) || decide (op w = some .nand) || decide (op w = some .lw)

/-- `DestReg(w)` (R126): `regB` for LW, `destField` otherwise. -/
def destReg (w : Word) : Reg := if op w = some .lw then regB w else destField w

/-- A latch whose occupant is a forwarding source for register `r` (R127). -/
def forwards (instruction : Word) (r : Reg) : Bool :=
  isSource instruction && decide (destReg instruction = r)

/-- `Forward(r, raw)` (R127): the nearest of EX/MEM, MEM/WB and WB/END that produces `r`, else the raw
value. An LW in EX/MEM matches like any source and delivers its address (R129). -/
def forward (s : State) (r : Reg) (raw : Word) : Word :=
  if forwards s.exmem.instruction r then s.exmem.aluResult
  else if forwards s.memwb.instruction r then s.memwb.writeData
  else if forwards s.wbend.instruction r then s.wbend.writeData
  else raw

/-- The effective `regA` operand of the ID/EX occupant (R97), formed for every opcode (R130). -/
def effA (s : State) : Word := forward s (regA s.idex.instruction) s.idex.readRegA

/-- The effective `regB` operand of the ID/EX occupant (R97), formed for every opcode (R130). -/
def effB (s : State) : Word := forward s (regB s.idex.instruction) s.idex.readRegB

/-- The effective address `(effA + offset) mod 2^32` (R43, R77), also the default ALU sum (R98). -/
def effectiveAddress (effA offset : Word) : Word := effA + offset

end Sys2Proof.Machine
end

