-- ==== Sys2Proof/Machine/Hazard.lean ====
section
/-! DEFINITION. The combinational control of a tick: the hazard unit's stall (spec/45_hazard_unit.md),
the branch resolution (spec/47_branch_squash.md) and the fetch address (R93, R94). All are functions of
the latches of the old snapshot; none has state of its own (R90, R115). -/

namespace Sys2Proof.Machine

/-- The hazard unit's condition on the ID/EX occupant `j` and the IF/ID occupant `i` (R116): raw field
comparisons, the `regB` one gated by `i` not being a NOOP. -/
def stallCondition (j i : Word) : Bool :=
  decide (op j = some .lw) &&
    (decide (regB j = regA i) || (decide (op i ≠ some .noop) && decide (regB j = regB i)))

/-- The hazard unit's one output, `stall` (R115). -/
def stall (s : State) : Bool := stallCondition s.idex.instruction s.ifid.instruction

/-- The BEQ in ID/EX is found taken in this tick (R136): it compares equal. -/
def branchTaken (s : State) : Bool :=
  decide (op s.idex.instruction = some .beq) && isTaken (branchDifference (effA s) (effB s))

/-- The fetch address `fa`: the branch target when EX/MEM holds a taken BEQ (R94), else `pc` (R93). -/
def fetchAddress (s : State) : Word :=
  if s.exmem.takenBranch then s.exmem.branchTarget else s.pc

/-- The word IF reads in this tick, `imem[fa]`; `none` when `fa` is out of bounds (R93). -/
def fetchedWord (s : State) : Option Word :=
  if inBounds (fetchAddress s) then some (s.imem.read (address (fetchAddress s))) else none

end Sys2Proof.Machine
end

