-- ==== Sys2Proof/Machine/Stages.lean ====
section
/-! DEFINITION. The five stages (spec/44_pipeline_stages.md), and one instruction's part in a tick.

An instruction is described by what it does in each stage, one row of the table of R108
(`StageActions`). `perform` is its PART IN A TICK: in every stage whose input holds the instruction it
does that stage's action, and it does nothing else: the part is the tick in which that instruction
alone acts. Each stage reads the old snapshot `s` only and
writes onto the new snapshot `n` (R8, R91), and the stages write disjoint fields, so the tick
(Machine/Tick.lean) is the parts of the five occupants put together.

The stall's and the squash's overrides (R118, R138) act on the instruction being fetched and on the
instruction being decoded, so they stand in those two stages' actions, the stall's first, the
squash's after it (R91). -/

namespace Sys2Proof.Machine

/-- What an instruction does to data memory in MEM (R102, R103). -/
inductive MemAccess where
  /-- no access -/
  | none
  /-- reads `dmem[aluResult]` into `writeData` -/
  | load
  /-- writes `readRegB` into `dmem[aluResult]` -/
  | store
  deriving DecidableEq, Repr

/-- What an instruction does when it stands in MEM/WB (R92, R105). -/
inductive Retire where
  /-- commits `writeData` to a register -/
  | write (dest : Reg)
  /-- retires without writing a register -/
  | nothing
  /-- ends the run (R146) -/
  | halt
  /-- raises IllegalOpcode instead of retiring (R88) -/
  | illegal
  deriving DecidableEq, Repr

/-- One instruction's row of R108: its word and what it does in each stage. -/
structure StageActions where
  /-- the word the latches carry -/
  word : Word
  /-- ID: the `offset` latched (R95) -/
  offset : Word
  /-- EX: `aluResult` from `effA`, `effB` and the latched `offset` (R98) -/
  alu : Word → Word → Word → Word
  /-- EX: a zero `aluResult` is a taken branch (R99) -/
  branches : Bool
  /-- MEM: its access to data memory -/
  memory : MemAccess
  /-- WB: how it leaves the pipeline -/
  retire : Retire

/-! ### What each stage latches -/

/-- The new IF/ID when `w` is the word fetched: `w` and `fa + 1` (R93); held by a stall (R118), its
`instruction` NOOP-ed by a squash (R138). -/
def nextIfId (s : State) (w : Word) : IfId :=
  let l : IfId :=
    if stall s then s.ifid else { instruction := w, pcPlus1 := fetchAddress s + 1#32 }
  if branchTaken s then { l with instruction := noopWord } else l

/-- The new `pc`: `fa + 1` (R93, R94), rolled back by one in a stall (R118). -/
def nextPc (s : State) : Word :=
  if stall s then fetchAddress s else fetchAddress s + 1#32

/-- The new ID/EX for the IF/ID occupant with immediate operand `offset` (R95): both registers read raw
for every opcode; the `instruction` NOOP-ed by a stall (R118) or a squash (R138), the other fields kept
(R22). -/
def nextIdEx (s : State) (offset : Word) : IdEx :=
  { instruction := if stall s || branchTaken s then noopWord else s.ifid.instruction
    pcPlus1 := s.ifid.pcPlus1
    readRegA := readReg s.x (regA s.ifid.instruction)
    readRegB := readReg s.x (regB s.ifid.instruction)
    offset := offset }

/-- The new EX/MEM for the ID/EX occupant whose ALU output is `result` (R97, R99, R100). -/
def nextExMem (s : State) (result : Word) (branches : Bool) : ExMem :=
  { instruction := s.idex.instruction
    branchTarget :=
      if branches && isTaken result then s.idex.pcPlus1 + s.idex.offset else s.idex.pcPlus1
    aluResult := result
    readRegB := effB s }

/-- The new MEM/WB for the EX/MEM occupant (R102); a load sees `dmem` of the old snapshot (R34). -/
def nextMemWb (s : State) (access : MemAccess) : MemWb :=
  { instruction := s.exmem.instruction
    writeData :=
      if access = .load then s.dmem.read (address s.exmem.aluResult) else s.exmem.aluResult }

/-- The new data memory (R103): changed by a store only. -/
def nextDmem (s : State) (access : MemAccess) : Memory :=
  if access = .store then s.dmem.write (address s.exmem.aluResult) s.exmem.readRegB else s.dmem

/-- The new registers (R105): at most the retiring instruction's destination changes. -/
def nextRegisters (s : State) : Retire → Registers
  | .write dest => writeReg s.x dest s.memwb.writeData
  | _ => s.x

/-- The new WB/END: a copy of MEM/WB (R106). -/
def nextWbEnd (s : State) : WbEnd :=
  { instruction := s.memwb.instruction, writeData := s.memwb.writeData }

/-! ### The stage actions of one instruction -/

/-- IF, for an instruction being fetched. -/
def fetchStage (a : StageActions) (s n : State) : State :=
  if fetchedWord s = some a.word then { n with ifid := nextIfId s a.word, pc := nextPc s } else n

/-- ID, for an instruction in IF/ID. -/
def decodeStage (a : StageActions) (s n : State) : State :=
  if s.ifid.instruction = a.word then { n with idex := nextIdEx s a.offset } else n

/-- EX, for an instruction in ID/EX. -/
def executeStage (a : StageActions) (s n : State) : State :=
  if s.idex.instruction = a.word then
    { n with exmem := nextExMem s (a.alu (effA s) (effB s) s.idex.offset) a.branches }
  else n

/-- MEM, for an instruction in EX/MEM (its bounds test is `dataFault`). -/
def memoryStage (a : StageActions) (s n : State) : State :=
  if s.exmem.instruction = a.word then
    { n with memwb := nextMemWb s a.memory, dmem := nextDmem s a.memory }
  else n

/-- WB, for an instruction in MEM/WB (a HALT and an illegal word never get here: `prologue`). -/
def writebackStage (a : StageActions) (s n : State) : State :=
  if s.memwb.instruction = a.word then
    { n with x := nextRegisters s a.retire, wbend := nextWbEnd s }
  else n

/-- The prologue tests on the MEM/WB occupant (R92): a HALT there ends the run before anything is
applied (R146), an illegal word faults (R88, R161). `none` when the tick goes on. -/
def prologue (a : StageActions) (s : State) : Option State :=
  if s.memwb.instruction = a.word then
    match a.retire with
    | .halt => some s.halt
    | .illegal => some (s.raise (.illegalOpcode a.word))
    | _ => none
  else none

/-- The MEM stage's bounds test on the EX/MEM occupant (R104, R163). `none` when the tick goes on. -/
def dataFault (a : StageActions) (s : State) : Option State :=
  if s.exmem.instruction = a.word ∧ a.memory ≠ .none ∧ inBounds s.exmem.aluResult = false then
    some (s.raise (.dataAddressOutOfBounds s.exmem.aluResult))
  else none

/-- One instruction's part in the tick from snapshot `s`: its action in every stage whose input holds
it, and the tick counted. Every field that none of these actions writes is as in `s`. A stopped machine
holds all its state (R24, R156). -/
def perform (a : StageActions) (s : State) : Result :=
  if s.status = .running then
    match prologue a s with
    | some t => .next t
    | none =>
      match dataFault a s with
      | some t => .next t
      | none =>
        .next (fetchStage a s (decodeStage a s (executeStage a s (memoryStage a s
          (writebackStage a s s.counted)))))
  else .next s

end Sys2Proof.Machine
end

