-- ==== Sys2Proof/Machine/Arith.lean ====
section
/-! DEFINITION. ADD and NAND (spec/40_arith.md). -/

namespace Sys2Proof.Machine

/-- ADD (R70): `x[dest] <- (x[regA] + x[regB]) mod 2^32`. -/
def execAdd (regA regB : Reg) (ignored : BitVec 13) (dest : Reg) (s : State) : Result :=
  perform
    { word := encode (.add regA regB ignored dest)
      offset := 0#32
      alu := fun effA effB _ => effA + effB
      branches := false
      memory := .none
      retire := .write dest } s

/-- NAND (R71): `x[dest] <- ~(x[regA] & x[regB])`. -/
def execNand (regA regB : Reg) (ignored : BitVec 13) (dest : Reg) (s : State) : Result :=
  perform
    { word := encode (.nand regA regB ignored dest)
      offset := 0#32
      alu := fun effA effB _ => ~~~(effA &&& effB)
      branches := false
      memory := .none
      retire := .write dest } s

end Sys2Proof.Machine
end

