-- ==== Sys2Proof/Machine/Control.lean ====
section
/-! DEFINITION. BEQ and JALR (spec/42_control.md). -/

namespace Sys2Proof.Machine

/-- BEQ (R80): if `x[regA] = x[regB]` the next instruction executed is the one at
`pcPlus1 + sext_16(offset)`. It is resolved in EX, where it latches the difference and the target; the
squash of the two younger instructions (R138) and the redirected fetch (R94) are computed from it in
`nextIfId`, `nextIdEx` and `fetchAddress`. -/
def execBeq (regA regB : Reg) (offset : BitVec 16) (s : State) : Result :=
  perform
    { word := encode (.beq regA regB offset)
      offset := signExtend16 offset
      alu := fun effA effB _ => branchDifference effA effB
      branches := true
      memory := .none
      retire := .nothing } s

/-- JALR (R81): present in the encoding, without effect in this pipeline; it carries its fields through
the stages, forwarding included (R130). -/
def execJalr (regA regB : Reg) (ignored : BitVec 16) (s : State) : Result :=
  perform
    { word := encode (.jalr regA regB ignored)
      offset := signExtend16 ignored
      alu := fun effA _ off => effectiveAddress effA off
      branches := false
      memory := .none
      retire := .nothing } s

end Sys2Proof.Machine
end

