-- ==== Sys2Proof/Machine/LoadStore.lean ====
section
/-! DEFINITION. LW and SW (spec/41_loadstore.md). -/

namespace Sys2Proof.Machine

/-- LW (R75): `x[regB] <- MemRead(x[regA] + sext_16(offset), 1)`; out of bounds it raises
DataAddressOutOfBounds in MEM. -/
def execLw (regA regB : Reg) (offset : BitVec 16) (s : State) : Result :=
  perform
    { word := encode (.lw regA regB offset)
      offset := signExtend16 offset
      alu := fun effA _ off => effectiveAddress effA off
      branches := false
      memory := .load
      retire := .write regB } s

/-- SW (R76): `MemWrite(x[regA] + sext_16(offset), 1, x[regB])`; out of bounds it raises
DataAddressOutOfBounds in MEM. -/
def execSw (regA regB : Reg) (offset : BitVec 16) (s : State) : Result :=
  perform
    { word := encode (.sw regA regB offset)
      offset := signExtend16 offset
      alu := fun effA _ off => effectiveAddress effA off
      branches := false
      memory := .store
      retire := .nothing } s

end Sys2Proof.Machine
end

