-- ==== Sys2Proof/Machine/System.lean ====
section
/-! DEFINITION. HALT, NOOP and illegal words (spec/43_system.md). -/

namespace Sys2Proof.Machine

/-- HALT (R85): no effect until it stands in MEM/WB, where it ends the run before that tick's updates
(R146). -/
def execHalt (ignored : BitVec 22) (s : State) : Result :=
  perform
    { word := encode (.halt ignored)
      offset := immediateField (encode (.halt ignored))
      alu := fun effA _ off => effectiveAddress effA off
      branches := false
      memory := .none
      retire := .halt } s

/-- NOOP (R86): no effect. -/
def execNoop (ignored : BitVec 22) (s : State) : Result :=
  perform
    { word := encode (.noop ignored)
      offset := immediateField (encode (.noop ignored))
      alu := fun effA _ off => effectiveAddress effA off
      branches := false
      memory := .none
      retire := .nothing } s

/-- An illegal word's passage (R88): no effect in IF/ID, ID/EX and EX/MEM; in MEM/WB it raises
IllegalOpcode in place of retiring. -/
def execIllegal (w : Word) (s : State) : Result :=
  perform
    { word := w
      offset := immediateField w
      alu := fun effA _ off => effectiveAddress effA off
      branches := false
      memory := .none
      retire := .illegal } s

end Sys2Proof.Machine
end

