-- ==== Sys2Proof/Machine/Dispatch.lean ====
section
/-! DEFINITION. exec: one arm per instruction. -/

namespace Sys2Proof.Machine

/-- The part of instruction `i` in the tick from snapshot `s` (see `perform`). -/
def exec (i : Instr) (s : State) : Host.Outcome State Fault Refusal :=
  match i with
  | .add regA regB ignored dest => Sys2Proof.Machine.execAdd regA regB ignored dest s
  | .nand regA regB ignored dest => Sys2Proof.Machine.execNand regA regB ignored dest s
  | .lw regA regB offset => Sys2Proof.Machine.execLw regA regB offset s
  | .sw regA regB offset => Sys2Proof.Machine.execSw regA regB offset s
  | .beq regA regB offset => Sys2Proof.Machine.execBeq regA regB offset s
  | .jalr regA regB ignored => Sys2Proof.Machine.execJalr regA regB ignored s
  | .halt ignored => Sys2Proof.Machine.execHalt ignored s
  | .noop ignored => Sys2Proof.Machine.execNoop ignored s

end Sys2Proof.Machine
end

