-- ==== Sys2Proof/Machine/Tick.lean ====
section
/-! DEFINITION. The tick: the parts of the five occupants put together (R90 to R107).

One tick holds up to six instructions: one in each latch and one being fetched (R109 (a)). The tick
runs `exec` of each of the five that have a stage to perform, takes from each part the fields its stage
writes, and counts the tick. -/

namespace Sys2Proof.Machine

/-- The part of the instruction a word names; an illegal word's is `execIllegal` (R88). -/
def partOf (w : Word) (s : State) : Result :=
  match decode w with
  | .ok i => exec i s
  | .error _ => execIllegal w s

/-- Go on with a part that leaves the machine running; a part that ends the run is the whole tick's
answer (R92, R167: the tick is abandoned). -/
def ifRunning (r : Result) (k : State → Result) : Result :=
  match r with
  | .next t => if t.status = .running then k t else .next t
  | .fault f => .fault f
  | .refused e => .refused e

/-- The new snapshot of an applied tick (R91, R92): each stage's fields from the part of the
instruction in that stage, `imem` unchanged (R14), one more tick counted (R23). -/
def assemble (s fetched decoded executed accessed retired : State) : State :=
  { x := retired.x
    pc := fetched.pc
    imem := s.imem
    dmem := accessed.dmem
    ifid := fetched.ifid
    idex := decoded.idex
    exmem := executed.exmem
    memwb := accessed.memwb
    wbend := retired.wbend
    cycles := s.counted.cycles
    status := .running }

/-- One tick of a running machine. The order of the tests is oldest instruction first (R166): HALT and
IllegalOpcode in MEM/WB (R92), the data bounds in EX/MEM (R104), the fetch bounds (R93). -/
def tick (s : State) : Result :=
  ifRunning (partOf s.memwb.instruction s) fun retired =>
  ifRunning (partOf s.exmem.instruction s) fun accessed =>
  match fetchedWord s with
  | none => .next (s.raise (.pcOutOfBounds (fetchAddress s)))
  | some w =>
    ifRunning (partOf w s) fun fetched =>
    ifRunning (partOf s.ifid.instruction s) fun decoded =>
    ifRunning (partOf s.idex.instruction s) fun executed =>
    .next (assemble s fetched decoded executed accessed retired)

/-- One clock edge: a tick while `Running`; a halted or faulted machine holds all its state (R24,
R145, R156). -/
def clock (s : State) : Result :=
  if s.status = .running then tick s else .next s

/-- The snapshot `s` with `w` as the word its next fetch reads, where the fetch address is in bounds. -/
def placeFetchWord (s : State) (w : Word) : State :=
  if inBounds (fetchAddress s) then
    { s with imem := s.imem.write (address (fetchAddress s)) w }
  else s

end Sys2Proof.Machine
end

