-- ==== Sys2Proof/Machine/Step.lean ====
section
/-! DEFINITION. The step: one clock edge of the hardware, one tick (R90, R191). -/

namespace Sys2Proof.Machine

/-- One step. -/
def step (s : State) : Host.Outcome State Fault Refusal := clock s

/-- `s` with the instruction whose bits are `w` stored in instruction memory where the next tick
fetches. -/
def State.withFetchWord (s : State) (nbits w : Nat) : State :=
  placeFetchWord s (BitVec.ofNat 32 (w % 2 ^ nbits))

end Sys2Proof.Machine
end

