-- ==== Sys2Proof/Machine/Boot.lean ====
section
/-! DEFINITION. Loading an image and releasing reset (R152, R153, R155, R180, R183).

Loading happens before reset is released and is not a step of the machine (R152). The host's text
reader has turned each line into the integer it holds, or `none` where it is no integer. -/

namespace Sys2Proof.Machine

/-- Why an image is not loaded (R153). These are failures of the surrounding software, not faults of
the hardware: no reset snapshot exists. -/
inductive LoadError where
  /-- the line at this address does not parse as an integer, or its integer does not fit a Word -/
  | malformedLine (line : Nat)
  /-- more than 65536 lines -/
  | tooManyWords
  deriving DecidableEq, Repr

/-- The Words of the lines, the first of them standing at address `a` (R152): a negative integer is the
Word with that two's-complement value. -/
def loadLines (a : Nat) : List ImageLine → Except LoadError (List Word)
  | [] => .ok []
  | line :: rest =>
    if Config.memWords ≤ a then .error .tooManyWords
    else
      match line with
      | none => .error (.malformedLine a)
      | some v =>
        if wellFormedLine (some v) then
          match loadLines (a + 1) rest with
          | .ok words => .ok (BitVec.ofInt 32 v :: words)
          | .error e => .error e
        else .error (.malformedLine a)

/-- The loader: an image's Words, address 0 first, or why there is no machine to run (R152, R153). -/
def loadImage (lines : List ImageLine) : Except LoadError (List Word) := loadLines 0 lines

/-- A memory holding `words` from address `a` up, every other word 0 (R28, R152). -/
def imageMemoryFrom (a : Nat) : List Word → Memory
  | [] => []
  | w :: rest =>
    if w = Memory.unlisted then imageMemoryFrom (a + 1) rest
    else (a, w) :: imageMemoryFrom (a + 1) rest

/-- The image from address 0, followed by zeros (R28). -/
def imageMemory (image : List Word) : Memory := imageMemoryFrom 0 image

/-- The reset snapshot with an image in both memories (R28, R180). -/
def bootState (image : List Word) : State :=
  { State.reset with imem := imageMemory image, dmem := imageMemory image }

/-- `numMemory` of a loaded image: its line count (R152, R5). A launch parameter, not state (R25): no
step reads it. -/
def numMemory (image : List Word) : Nat := image.length

/-- From the lines of an image to the reset snapshot, or to why there is none: a failed load leaves no
machine to run (R153). -/
def boot (lines : List ImageLine) : Except LoadError State :=
  match loadImage lines with
  | .ok image => .ok (bootState image)
  | .error e => .error e

end Sys2Proof.Machine
end

