-- ==== Sys2Proof/Machine/Reference.lean ====
section
/-! DEFINITION. Two reference texts the machine is measured against, neither of which the step calls.

`Reference.tick` is the whole tick as one block, R107 (spec/44_pipeline_stages.md) line by line. `SeqStep`
of R195 (spec/70_reset_and_hazards.md) is the sequential semantics that stands for the out-of-scope
oracle (decision D30). -/

namespace Sys2Proof.Machine

/-! ### The whole tick in one block (R107) -/

/-- `Forward(s, r, raw)` of R107. -/
def Reference.forward (s : State) (r : Reg) (raw : Word) : Word :=
  let isSource := fun w : Word => op w = some .add ∨ op w = some .nand ∨ op w = some .lw
  let destReg := fun w : Word => if op w = some .lw then regB w else destField w
  if isSource s.exmem.instruction ∧ destReg s.exmem.instruction = r then s.exmem.aluResult
  else if isSource s.memwb.instruction ∧ destReg s.memwb.instruction = r then s.memwb.writeData
  else if isSource s.wbend.instruction ∧ destReg s.wbend.instruction = r then s.wbend.writeData
  else raw

/-- The ALU of R107. -/
def Reference.alu (o : Option Mnemonic) (effA effB offset : Word) : Word :=
  match o with
  | some .add => effA + effB
  | some .nand => ~~~(effA &&& effB)
  | some .beq => effB - effA
  | _ => effA + offset

/-- `Tick(s)` of R107 for a running `s`, in the order of its lines. -/
def Reference.tick (s : State) : State :=
  let k := s.exmem.instruction
  let m := s.memwb.instruction
  let takenPrev := op k = some .beq ∧ s.exmem.aluResult = 0#32
  let fa := if takenPrev then s.exmem.branchTarget else s.pc
  let i := s.ifid.instruction
  let j := s.idex.instruction
  let stalled := op j = some .lw ∧ (regB j = regA i ∨ (op i ≠ some .noop ∧ regB j = regB i))
  let effA := Reference.forward s (regA j) s.idex.readRegA
  let effB := Reference.forward s (regB j) s.idex.readRegB
  let alu := Reference.alu (op j) effA effB s.idex.offset
  let taken := op j = some .beq ∧ alu = 0#32
  if op m = some .halt then { s with status := .halted }
  else if op m = none then { s with status := .faulted (.illegalOpcode m) }
  else if (op k = some .lw ∨ op k = some .sw) ∧
      ¬(0 ≤ s.exmem.aluResult.toInt ∧ s.exmem.aluResult.toInt ≤ 65535) then
    { s with status := .faulted (.dataAddressOutOfBounds s.exmem.aluResult) }
  else if ¬(0 ≤ fa.toInt ∧ fa.toInt ≤ 65535) then
    { s with status := .faulted (.pcOutOfBounds fa) }
  else
    { x :=
        if op m = some .lw then writeReg s.x (regB m) s.memwb.writeData
        else if op m = some .add ∨ op m = some .nand then
          writeReg s.x (destField m) s.memwb.writeData
        else s.x
      pc := if stalled then fa else fa + 1#32
      imem := s.imem
      dmem :=
        if op k = some .sw then s.dmem.write s.exmem.aluResult.toNat s.exmem.readRegB else s.dmem
      ifid :=
        { instruction :=
            if taken then noopWord
            else if stalled then s.ifid.instruction else s.imem.read fa.toNat
          pcPlus1 := if stalled then s.ifid.pcPlus1 else fa + 1#32 }
      idex :=
        { instruction := if taken then noopWord else if stalled then noopWord else i
          pcPlus1 := s.ifid.pcPlus1
          readRegA := readReg s.x (regA i)
          readRegB := readReg s.x (regB i)
          offset :=
            if op i = some .add ∨ op i = some .nand then 0#32 else immediateField i }
      exmem :=
        { instruction := j
          branchTarget := if taken then s.idex.pcPlus1 + s.idex.offset else s.idex.pcPlus1
          aluResult := alu
          readRegB := effB }
      memwb :=
        { instruction := k
          writeData :=
            if op k = some .lw then s.dmem.read s.exmem.aluResult.toNat else s.exmem.aluResult }
      wbend := { instruction := m, writeData := s.memwb.writeData }
      cycles := s.cycles + 1
      status := .running }

/-! ### The sequential reference semantics (R195) -/

/-- `SeqState` of R195. Its program counter is an address that R195 never wraps, so it is an `Int`. -/
structure SeqState where
  pc : Int
  x : Registers
  mem : Memory
  deriving DecidableEq, Repr

/-- What one sequential step comes to. -/
inductive SeqOutcome where
  /-- the next state -/
  | next (q : SeqState)
  /-- HALT: stop, success -/
  | halted (q : SeqState)
  /-- the hardware fault the instruction raises -/
  | faulted (f : Fault)
  /-- a JALR: the program is outside the property -/
  | excluded
  deriving DecidableEq, Repr

/-- The initial `SeqState`: `pc = 0`, `x = 0`, `mem` the image followed by zeros. -/
def seqInit (image : List Word) : SeqState :=
  { pc := 0, x := Vector.replicate 8 0#32, mem := imageMemory image }

/-- What an instruction means in sequence (R195; R70, R71, R75, R76, R80, R85, R86). -/
def seqExec (i : Instr) (q : SeqState) : SeqOutcome :=
  match i with
  | .add a b _ dest =>
    .next { q with x := writeReg q.x dest (readReg q.x a + readReg q.x b), pc := q.pc + 1 }
  | .nand a b _ dest =>
    .next { q with x := writeReg q.x dest (~~~(readReg q.x a &&& readReg q.x b)), pc := q.pc + 1 }
  | .lw a b offset =>
    let ea := readReg q.x a + signExtend16 offset
    if inBounds ea then
      .next { q with x := writeReg q.x b (q.mem.read (address ea)), pc := q.pc + 1 }
    else .faulted (.dataAddressOutOfBounds ea)
  | .sw a b offset =>
    let ea := readReg q.x a + signExtend16 offset
    if inBounds ea then
      .next { q with mem := q.mem.write (address ea) (readReg q.x b), pc := q.pc + 1 }
    else .faulted (.dataAddressOutOfBounds ea)
  | .beq a b offset =>
    .next { q with pc := if readReg q.x a = readReg q.x b then q.pc + 1 + offset.toInt else q.pc + 1 }
  | .jalr .. => .excluded
  | .halt _ => .halted q
  | .noop _ => .next { q with pc := q.pc + 1 }

/-- `SeqStep` of R195, fetching from the unmodified image `imem`. -/
def seqStep (imem : Memory) (q : SeqState) : SeqOutcome :=
  if 0 ≤ q.pc ∧ q.pc < Config.memWords then
    match decode (imem.read q.pc.toNat) with
    | .ok i => seqExec i q
    | .error _ => .faulted (.illegalOpcode (imem.read q.pc.toNat))
  else .faulted (.pcOutOfBounds (BitVec.ofInt 32 q.pc))

/-- `n` sequential steps, stopping at the first that is not `next`. -/
def seqRun (imem : Memory) : Nat → SeqState → SeqOutcome
  | 0, q => .next q
  | n + 1, q =>
    match seqStep imem q with
    | .next q' => seqRun imem n q'
    | o => o

/-- The instruction-set meaning of JALR (R83), for reference only: `x[regB] <- a + 1`, then
`pc <- x[regA]`. The link is written first (general knowledge, GK4), so `jalr r r` continues at
`a + 1`. Nothing calls it: JALR is without effect in this pipeline (R81). -/
def seqJalr (regA regB : Reg) (q : SeqState) : SeqState :=
  let x := writeReg q.x regB (BitVec.ofInt 32 (q.pc + 1))
  { q with x := x, pc := (readReg x regA).toInt }

end Sys2Proof.Machine
end

