-- ==== Sys2Proof/Machine/Report.lean ====
section
/-! DEFINITION. What the host reads: the termination report and the per-cycle trace (R149 to R151,
R155). Neither changes the machine. Text formats are out of scope (R4 (d)). -/

namespace Sys2Proof.Machine

/-- The reported cycle count, `cycles + 1` (R149). -/
def reportedCycles (s : State) : Nat := s.cycles + 1

/-- How many words of `dmem` the report of a run of `image` lists (R150, D32). -/
def reportLength (which : ReportWords) (image : List Word) : Nat :=
  match which with
  | .numMemory => numMemory image
  | .all => Config.memWords

/-- The termination report (R150). -/
structure Report where
  cycles : Nat
  x : Registers
  dmem : List Word
  deriving DecidableEq, Repr

/-- The report of a halted run of `image`; a run that has not halted, and a faulted one, have none
(R155, R167). -/
def report (image : List Word) (s : State) : Option Report :=
  if s.status = .halted then
    some
      { cycles := reportedCycles s
        x := s.x
        dmem := (List.range (reportLength Config.reportWords image)).map s.dmem.read }
  else none

/-- The cycle number a trace block of snapshot `s` carries (R151, D32). -/
def traceCycle (s : State) : Nat := s.cycles + Config.traceCycleOrigin.val

end Sys2Proof.Machine
end

