-- ==== Sys2Proof/Safety.lean ====
section
/-! DEFINITION. The terms claims are stated in: when a tick is applied, what a register and a memory
word hold in program order, and the invariant every reachable snapshot meets. -/

namespace Sys2Proof.Machine

/-! ### Runs -/

/-- `k` steps from `s` (R145): the host's own run of the machine. -/
def ticks (k : Nat) (s : State) : Result := Host.Core.run Sys2Proof.core k s

/-! ### When a tick is applied -/

/-- The instruction in EX/MEM accesses data memory (R104). -/
def accessesMemory (w : Word) : Prop := op w = some .lw ∨ op w = some .sw

/-- The tick from `s` is applied (R92 (3)): the machine is running, MEM/WB holds neither a HALT nor an
illegal word, and neither the data address nor the fetch address is out of bounds. -/
structure TickApplies (s : State) : Prop where
  running : s.status = .running
  notHalt : op s.memwb.instruction ≠ some .halt
  notIllegal : op s.memwb.instruction ≠ none
  dataInBounds : accessesMemory s.exmem.instruction → inBounds s.exmem.aluResult = true
  fetchInBounds : inBounds (fetchAddress s) = true

/-! ### One instruction's part in a tick -/

/-- The part of the instruction `w`, from `s` to `t`, leaves alone the output of every stage that `w`
does not stand in, and instruction memory always. -/
structure PartFrame (w : Word) (s t : State) : Prop where
  running : t.status = .running
  counted : t.cycles = s.cycles + 1
  imem : t.imem = s.imem
  fetch : fetchedWord s ≠ some w → t.pc = s.pc ∧ t.ifid = s.ifid
  decode : s.ifid.instruction ≠ w → t.idex = s.idex
  execute : s.idex.instruction ≠ w → t.exmem = s.exmem
  memory : s.exmem.instruction ≠ w → t.memwb = s.memwb ∧ t.dmem = s.dmem
  writeback : s.memwb.instruction ≠ w → t.x = s.x ∧ t.wbend = s.wbend

/-- What every instruction does in IF and ID (R93, R95, R118, R138), `w` its word and `offset` the
immediate operand it latches. -/
structure PartFetchDecode (w offset : Word) (s t : State) : Prop where
  fetched : fetchedWord s = some w → stall s = false → branchTaken s = false →
    t.ifid = { instruction := w, pcPlus1 := fetchAddress s + 1#32 } ∧ t.pc = fetchAddress s + 1#32
  fetchedAndSquashed : fetchedWord s = some w → branchTaken s = true →
    t.ifid = { instruction := noopWord, pcPlus1 := fetchAddress s + 1#32 } ∧
      t.pc = fetchAddress s + 1#32
  fetchedAndDiscarded : fetchedWord s = some w → stall s = true →
    t.ifid = s.ifid ∧ t.pc = fetchAddress s
  decoded : s.ifid.instruction = w →
    t.idex =
      { instruction := if stall s = true ∨ branchTaken s = true then noopWord else w
        pcPlus1 := s.ifid.pcPlus1
        readRegA := readReg s.x (regA w)
        readRegB := readReg s.x (regB w)
        offset := offset }

/-! ### Program order

What registers and data memory hold once every instruction older than the one in ID/EX has retired: the
instructions in MEM/WB and EX/MEM, in that order (R132). WB/END's has retired already (R21). -/

/-- The registers after the instruction `w` commits the result `v` (R105). -/
def committed (x : Registers) (w v : Word) : Registers :=
  if isSource w then writeReg x (destReg w) v else x

/-- The result the instruction in EX/MEM will have in MEM/WB (R102). -/
def memoryResult (s : State) : Word :=
  if op s.exmem.instruction = some .lw then s.dmem.read (address s.exmem.aluResult)
  else s.exmem.aluResult

/-- The registers in program order just before the ID/EX occupant. -/
def programOrderRegs (s : State) : Registers :=
  committed (committed s.x s.memwb.instruction s.memwb.writeData) s.exmem.instruction (memoryResult s)

/-- Data memory in program order just before the ID/EX occupant: the store in EX/MEM made. -/
def programOrderMem (s : State) : Memory :=
  if op s.exmem.instruction = some .sw then
    s.dmem.write (address s.exmem.aluResult) s.exmem.readRegB
  else s.dmem

/-! ### The invariant -/

/-- What WB/END and the raw value latched in ID/EX together say register `r` holds (R131). -/
def latchedOperand (s : State) (r : Reg) (raw : Word) : Word :=
  if forwards s.wbend.instruction r then s.wbend.writeData else raw

/-- The invariant of a running pipeline. -/
structure PipelineInvariant (s : State) : Prop where
  /-- instruction memory is in canonical form -/
  imemWf : s.imem.wf = true
  /-- data memory is in canonical form -/
  dmemWf : s.dmem.wf = true
  /-- `0 <= pc <= 65536` (R109 (e)) -/
  pcRange : s.pc.toNat ≤ 65536
  /-- every `pcPlus1` field is in 0 to 65536 (R109 (e)) -/
  ifidRange : s.ifid.pcPlus1.toNat ≤ 65536
  idexRange : s.idex.pcPlus1.toNat ≤ 65536
  /-- a taken BEQ in EX/MEM has NOOPWORD behind it in ID/EX and IF/ID (R109 (c)) -/
  squashed : s.exmem.takenBranch = true →
    s.idex.instruction = noopWord ∧ s.ifid.instruction = noopWord
  /-- an instruction behind an LW in EX/MEM names the LW's destination only if it is a NOOP (R109 (d),
  R121) -/
  loadUse : op s.exmem.instruction = some .lw → op s.idex.instruction ≠ some .noop →
    regA s.idex.instruction ≠ regB s.exmem.instruction ∧
    regB s.idex.instruction ≠ regB s.exmem.instruction
  /-- the operand ID latched is what the register file holds now, or what WB/END has just committed
  (R131) -/
  operandA : op s.idex.instruction ≠ some .noop →
    latchedOperand s (regA s.idex.instruction) s.idex.readRegA =
      readReg s.x (regA s.idex.instruction)
  operandB : op s.idex.instruction ≠ some .noop →
    latchedOperand s (regB s.idex.instruction) s.idex.readRegB =
      readReg s.x (regB s.idex.instruction)
  /-- the immediate operand ID latched is the instruction's own (R95) -/
  immediate : op s.idex.instruction ≠ some .noop → op s.idex.instruction ≠ some .add →
    op s.idex.instruction ≠ some .nand → s.idex.offset = immediateField s.idex.instruction

end Sys2Proof.Machine
end

