-- ==== Sys2Proof/Certificates/Slice0/Obligations.lean ====
section
/-! DEFINITION. The statements for the provers. Each says which rule of spec/ it formalises, or which
sections it is derived from. Stage latches: IF/ID `ifid`, ID/EX `idex`, EX/MEM `exmem`, MEM/WB `memwb`,
WB/END `wbend`. `TickApplies s` says that the tick from `s` is applied (R92 (3)); `exec i s` is the part
of instruction `i` in the tick from `s`. -/

open Sys2Proof Sys2Proof.Machine

/-! ### Encoding -/

/-- Every instruction decodes from its encoding, with every field at every value it admits, ignored
bits included (spec/30_encoding.md sections 1, 3 and 4). -/
def Obligations.DecodeOfEncodeGivesTheInstruction : Prop :=
  ∀ i : Instr, decode (encode i) = .ok i

/-- The decoder refuses exactly the words whose bits 31:25 are not all zero, by name, and every other
word is the encoding of one instruction (spec/30_encoding.md section 4: R60, R62). -/
def Obligations.EveryWordIsOneInstructionOrIllegal : Prop :=
  ∀ w : Word,
    (decode w = .error (.illegalOpcode w) ↔ w.extractLsb' 25 7 ≠ 0#7) ∧
    (w.extractLsb' 25 7 = 0#7 → ∃ i, decode w = .ok i ∧ encode i = w ∧ ∀ k, encode k = w → k = i)

/-- R51: the opcode is the signed word shifted right arithmetically by 22 places. -/
def Obligations.OpcodeIsArithmeticShiftOfTheWord : Prop :=
  ∀ w : Word,
    opcode w = w.toInt / 2 ^ 22 ∧ -512 ≤ opcode w ∧ opcode w ≤ 511 ∧
    ((0 ≤ opcode w ∧ opcode w ≤ 7) ↔ w.extractLsb' 25 7 = 0#7) ∧
    (w.extractLsb' 25 7 = 0#7 → opcode w = ((w.extractLsb' 22 3).toNat : Int)) ∧
    ((w.extractLsb' 25 7 ≠ 0#7) ↔ op w = none)

/-- R54: the immediate is the low 16 bits, sign-extended, unscaled, with the rule's three examples. -/
def Obligations.ImmediateIsTheSignExtendedLowHalf : Prop :=
  ∀ w : Word,
    (immediateField w).toInt =
      (if (w.extractLsb' 0 16).toNat < 32768 then ((w.extractLsb' 0 16).toNat : Int)
       else (w.extractLsb' 0 16).toNat - 65536) ∧
    -32768 ≤ (immediateField w).toInt ∧ (immediateField w).toInt ≤ 32767 ∧
    (w.extractLsb' 0 16 = 0xFFFF#16 → (immediateField w).toInt = -1) ∧
    (w.extractLsb' 0 16 = 0x8000#16 → (immediateField w).toInt = -32768) ∧
    (w.extractLsb' 0 16 = 0x7FFF#16 → (immediateField w).toInt = 32767)

/-- One word of each family, from the examples of R70, R71, R75, R76, R80, R81 and the canonical words of
R59, decodes to the instruction it stands for; the word 0x02000000 is illegal (vector V4). -/
def Obligations.ExampleWordsDecodeAsTheSpecSays : Prop :=
  decode 0x00130001#32 = .ok (.add 2 3 0 1) ∧ decode 0x00530001#32 = .ok (.nand 2 3 0 1) ∧
  decode 0x008A0003#32 = .ok (.lw 1 2 3) ∧
  decode 0x00CAFFFC#32 = .ok (.sw 1 2 (-4)) ∧ decode 0x010A0005#32 = .ok (.beq 1 2 5) ∧
  decode 0x014A0000#32 = .ok (.jalr 1 2 0) ∧ decode 0x01800000#32 = .ok (.halt 0) ∧
  decode 0x01C00000#32 = .ok (.noop 0) ∧
  decode 0x02000000#32 = .error (.illegalOpcode 0x02000000#32)

/-! ### The step -/

/-- A step runs the instruction it fetches, and beside it the instructions in the latches: each field
of the new snapshot is the one `exec` of the instruction in that stage answers, and the tick is
counted. -/
def Obligations.StepRunsTheDecodedInstructions : Prop :=
  ∀ (s : State) (w : Word) (i : Instr),
    TickApplies s → fetchedWord s = some w → decode w = .ok i →
    ∃ t n, exec i s = .next t ∧ step s = .next n ∧
      n.ifid = t.ifid ∧ n.pc = t.pc ∧
      n.cycles = s.cycles + 1 ∧ n.imem = s.imem ∧ n.status = .running ∧
      (∀ d, decode s.ifid.instruction = .ok d → ∃ u, exec d s = .next u ∧ n.idex = u.idex) ∧
      (∀ e, decode s.idex.instruction = .ok e → ∃ u, exec e s = .next u ∧ n.exmem = u.exmem) ∧
      (∀ k, decode s.exmem.instruction = .ok k →
        ∃ u, exec k s = .next u ∧ n.memwb = u.memwb ∧ n.dmem = u.dmem) ∧
      (∀ m, decode s.memwb.instruction = .ok m →
        ∃ u, exec m s = .next u ∧ n.x = u.x ∧ n.wbend = u.wbend)

/-- Where an instruction's part ends the run, that is the whole step: a HALT in MEM/WB, and an LW or SW
out of bounds in EX/MEM behind an instruction that retires. -/
def Obligations.StepIsTheStopOfTheInstructionThatStops : Prop :=
  ∀ (s : State) (i : Instr), s.status = .running →
    (decode s.memwb.instruction = .ok i → i.mnemonic = .halt → step s = exec i s) ∧
    (decode s.exmem.instruction = .ok i → i.mnemonic = .lw ∨ i.mnemonic = .sw →
      inBounds s.exmem.aluResult = false →
      op s.memwb.instruction ≠ some .halt → op s.memwb.instruction ≠ none →
      step s = exec i s)

/-- R107: on a running snapshot the step is the complete tick function, written out line by line in
`Reference.tick`. -/
def Obligations.StepIsTheCompleteTickFunction : Prop :=
  ∀ s : State, s.status = .running → step s = .next (Reference.tick s)

/-- The tick is total (spec/44_pipeline_stages.md section 9, R111): every snapshot, reachable or not,
has a next one; no step ends in a fault or a refusal of the model. -/
def Obligations.EverySnapshotHasANextSnapshot : Prop :=
  ∀ s : State, ∃ t, step s = .next t

/-- A halted or faulted machine holds all its state for good (spec/10_state.md section 5, R24;
spec/48_run_loop.md section 3, R156). That a step of a stopped machine answers the same snapshot is the
model's reading (log entry 3). -/
def Obligations.StoppedMachineHoldsItsState : Prop :=
  ∀ (s : State) (k : Nat), s.status ≠ .running → ticks k s = .next s

/-- R166: the order of the tests on one snapshot, HALT first, then the oldest instruction's fault. -/
def Obligations.OldestInstructionsFaultIsReported : Prop :=
  ∀ s : State, s.status = .running →
    (op s.memwb.instruction = some .halt → step s = .next { s with status := .halted }) ∧
    (op s.memwb.instruction = none →
      step s = .next { s with status := .faulted (.illegalOpcode s.memwb.instruction) }) ∧
    (op s.memwb.instruction ≠ some .halt → op s.memwb.instruction ≠ none →
      accessesMemory s.exmem.instruction → inBounds s.exmem.aluResult = false →
      step s = .next { s with status := .faulted (.dataAddressOutOfBounds s.exmem.aluResult) }) ∧
    (op s.memwb.instruction ≠ some .halt → op s.memwb.instruction ≠ none →
      (accessesMemory s.exmem.instruction → inBounds s.exmem.aluResult = true) →
      inBounds (fetchAddress s) = false →
      step s = .next { s with status := .faulted (.pcOutOfBounds (fetchAddress s)) })

/-- R146: a HALT in MEM/WB, any HALT word, ends the run before that tick's updates; no other state
element changes in that tick or ever after. -/
def Obligations.HaltInMemWbEndsTheRun : Prop :=
  ∀ (s : State) (k : Nat), s.status = .running → op s.memwb.instruction = some .halt →
    step s = .next { s with status := .halted } ∧
    ticks (k + 1) s = .next { s with status := .halted }

/-- Fault entry (spec/60_exceptions.md section 2, R167): a tick that faults changes nothing but
`status`, does not count itself, is never left, and has no report. -/
def Obligations.FaultFreezesTheSnapshot : Prop :=
  ∀ (s t : State) (f : Fault), s.status = .running → step s = .next t → t.status = .faulted f →
    t = { s with status := .faulted f } ∧ (∀ k, ticks k t = .next t) ∧ ∀ image, report image t = none

/-- The causes of the three faults, exactly (spec/60_exceptions.md section 1, R160 to R163). -/
def Obligations.EachFaultHasItsCause : Prop :=
  ∀ (s t : State), s.status = .running → step s = .next t →
    (∀ w, t.status = .faulted (.illegalOpcode w) ↔
      (s.memwb.instruction = w ∧ w.extractLsb' 25 7 ≠ 0#7)) ∧
    (∀ a, t.status = .faulted (.dataAddressOutOfBounds a) →
      accessesMemory s.exmem.instruction ∧ s.exmem.aluResult = a ∧ (a.toInt < 0 ∨ 65535 < a.toInt)) ∧
    (∀ a, t.status = .faulted (.pcOutOfBounds a) →
      a = (if op s.exmem.instruction = some .beq ∧ s.exmem.aluResult = 0#32
           then s.exmem.branchTarget else s.pc) ∧ (a.toInt < 0 ∨ 65535 < a.toInt))

/-- The tick counter (spec/10_state.md section 5, R23): an applied tick adds one; a tick that ends in
HALT detection or in a fault adds nothing. -/
def Obligations.OnlyAppliedTicksAreCounted : Prop :=
  ∀ (s t : State), s.status = .running → step s = .next t →
    (t.status = .running → t.cycles = s.cycles + 1) ∧ (t.status ≠ .running → t.cycles = s.cycles)

/-- What one step may change (spec/10_state.md section 8, R29): a register only as the destination of a
retiring LW, ADD or NAND; a data word only as the address of an SW in EX/MEM; instruction memory
never. -/
def Obligations.OnlyTheNamedMutatorsWrite : Prop :=
  ∀ (s t : State), s.dmem.wf = true → step s = .next t →
    t.imem = s.imem ∧
    (∀ r, readReg t.x r = readReg s.x r ∨
      (op s.memwb.instruction = some .lw ∧ regB s.memwb.instruction = r) ∨
      ((op s.memwb.instruction = some .add ∨ op s.memwb.instruction = some .nand) ∧
        destField s.memwb.instruction = r)) ∧
    (∀ a, t.dmem.read a = s.dmem.read a ∨
      (op s.exmem.instruction = some .sw ∧ address s.exmem.aluResult = a))

/-- A store is never seen by an instruction fetch (spec/20_memory.md section 5, R39): no run changes
instruction memory. -/
def Obligations.NoRunChangesInstructionMemory : Prop :=
  ∀ (k : Nat) (s t : State), ticks k s = .next t → t.imem = s.imem

/-! ### The stages -/

/-- R93 and R94: the fetch address, its bounds test, and the fetch (where neither a stall nor a squash
overrides it). -/
def Obligations.FetchTakesTheWordAtTheFetchAddress : Prop :=
  ∀ (s : State) (fa : Word),
    fa = (if op s.exmem.instruction = some .beq ∧ s.exmem.aluResult = 0#32
          then s.exmem.branchTarget else s.pc) →
    (s.status = .running → op s.memwb.instruction ≠ some .halt → op s.memwb.instruction ≠ none →
      (accessesMemory s.exmem.instruction → inBounds s.exmem.aluResult = true) →
      fa.toInt < 0 ∨ 65535 < fa.toInt → step s = .next (s.raise (.pcOutOfBounds fa))) ∧
    (TickApplies s → stall s = false → branchTaken s = false →
      ∃ n, step s = .next n ∧ 0 ≤ fa.toInt ∧ fa.toInt ≤ 65535 ∧
        n.ifid.instruction = s.imem.read fa.toNat ∧ n.ifid.pcPlus1 = fa + 1#32 ∧
        n.pc = fa + 1#32)

/-- R95: the ID stage reads both registers raw, from the old register file, for every opcode; `offset`
is 0 for ADD and NAND; no fault is raised. -/
def Obligations.DecodeStageReadsRegistersRaw : Prop :=
  ∀ s : State, TickApplies s →
    ∃ n, step s = .next n ∧ n.status = .running ∧
      (stall s = false → branchTaken s = false → n.idex.instruction = s.ifid.instruction) ∧
      n.idex.pcPlus1 = s.ifid.pcPlus1 ∧
      n.idex.readRegA = readReg s.x (regA s.ifid.instruction) ∧
      n.idex.readRegB = readReg s.x (regB s.ifid.instruction) ∧
      ((op s.ifid.instruction = some .add ∨ op s.ifid.instruction = some .nand) →
        n.idex.offset = 0#32) ∧
      (op s.ifid.instruction ≠ some .add → op s.ifid.instruction ≠ some .nand →
        n.idex.offset = immediateField s.ifid.instruction)

/-- R98: the ALU result by opcode. -/
def Obligations.AluResultByOpcode : Prop :=
  ∀ s : State, TickApplies s →
    ∃ n, step s = .next n ∧
      (op s.idex.instruction = some .add → n.exmem.aluResult = effA s + effB s) ∧
      (op s.idex.instruction = some .nand → n.exmem.aluResult = ~~~(effA s &&& effB s)) ∧
      (op s.idex.instruction = some .beq → n.exmem.aluResult = effB s - effA s) ∧
      (op s.idex.instruction ≠ some .add → op s.idex.instruction ≠ some .nand →
        op s.idex.instruction ≠ some .beq → n.exmem.aluResult = effA s + s.idex.offset)

/-- R99 and R100: EX latches the branch target and passes the forwarded `regB` operand down for every
opcode; it moves the instruction on (R97). -/
def Obligations.ExecuteLatchesTargetAndStoreData : Prop :=
  ∀ s : State, TickApplies s →
    ∃ n, step s = .next n ∧ n.exmem.instruction = s.idex.instruction ∧
      n.exmem.readRegB = forward s (regB s.idex.instruction) s.idex.readRegB ∧
      (op s.idex.instruction = some .beq → n.exmem.aluResult = 0#32 →
        n.exmem.branchTarget = s.idex.pcPlus1 + s.idex.offset) ∧
      (¬(op s.idex.instruction = some .beq ∧ n.exmem.aluResult = 0#32) →
        n.exmem.branchTarget = s.idex.pcPlus1)

/-- R126 and R127: the forwarding sources, the select function, nearest source first, and its use on the
two operands of the ID/EX occupant. -/
def Obligations.ForwardingTakesTheNearestSource : Prop :=
  ∀ (s : State) (r : Reg) (raw : Word),
    let source := fun w : Word =>
      ((op w = some .add ∨ op w = some .nand) ∧ destField w = r) ∨ (op w = some .lw ∧ regB w = r)
    (source s.exmem.instruction → forward s r raw = s.exmem.aluResult) ∧
    (¬source s.exmem.instruction → source s.memwb.instruction →
      forward s r raw = s.memwb.writeData) ∧
    (¬source s.exmem.instruction → ¬source s.memwb.instruction → source s.wbend.instruction →
      forward s r raw = s.wbend.writeData) ∧
    (¬source s.exmem.instruction → ¬source s.memwb.instruction → ¬source s.wbend.instruction →
      forward s r raw = raw) ∧
    effA s = forward s (regA s.idex.instruction) s.idex.readRegA ∧
    effB s = forward s (regB s.idex.instruction) s.idex.readRegB

/-- R102: MEM moves the instruction on; a load's write data is the word read from the old data memory,
any other instruction's is `aluResult`. -/
def Obligations.MemoryStageLoadsOrPassesTheResult : Prop :=
  ∀ s : State, TickApplies s →
    ∃ n, step s = .next n ∧ n.memwb.instruction = s.exmem.instruction ∧
      (op s.exmem.instruction = some .lw →
        n.memwb.writeData = s.dmem.read s.exmem.aluResult.toNat) ∧
      (op s.exmem.instruction ≠ some .lw → n.memwb.writeData = s.exmem.aluResult)

/-- R103: a store writes its one word, nothing else writes data memory, instruction memory never
changes. -/
def Obligations.StoreWritesExactlyOneWord : Prop :=
  ∀ s : State, TickApplies s → s.dmem.wf = true →
    ∃ n, step s = .next n ∧ n.imem = s.imem ∧
      (op s.exmem.instruction = some .sw →
        n.dmem.read s.exmem.aluResult.toNat = s.exmem.readRegB ∧
        ∀ a, a ≠ s.exmem.aluResult.toNat → n.dmem.read a = s.dmem.read a) ∧
      (op s.exmem.instruction ≠ some .sw → ∀ a, n.dmem.read a = s.dmem.read a)

/-- R104: the data bounds test, made for LW and SW and for no other opcode. -/
def Obligations.DataAddressOutOfBoundsFaults : Prop :=
  ∀ s : State, s.status = .running → op s.memwb.instruction ≠ some .halt →
    op s.memwb.instruction ≠ none →
    ((op s.exmem.instruction = some .lw ∨ op s.exmem.instruction = some .sw) →
      s.exmem.aluResult.toInt < 0 ∨ 65535 < s.exmem.aluResult.toInt →
      step s = .next (s.raise (.dataAddressOutOfBounds s.exmem.aluResult))) ∧
    (¬(op s.exmem.instruction = some .lw ∨ op s.exmem.instruction = some .sw) →
      ∀ t a, step s = .next t → t.status ≠ .faulted (.dataAddressOutOfBounds a))

/-- R105: the commit. LW writes `regB`, ADD and NAND write `dest`, nothing else writes a register, and
every other register keeps its value. -/
def Obligations.WritebackCommitsToTheDestination : Prop :=
  ∀ s : State, TickApplies s →
    ∃ n, step s = .next n ∧
      (op s.memwb.instruction = some .lw →
        readReg n.x (regB s.memwb.instruction) = s.memwb.writeData ∧
        ∀ r, r ≠ regB s.memwb.instruction → readReg n.x r = readReg s.x r) ∧
      (op s.memwb.instruction = some .add ∨ op s.memwb.instruction = some .nand →
        readReg n.x (destField s.memwb.instruction) = s.memwb.writeData ∧
        ∀ r, r ≠ destField s.memwb.instruction → readReg n.x r = readReg s.x r) ∧
      (op s.memwb.instruction ≠ some .lw → op s.memwb.instruction ≠ some .add →
        op s.memwb.instruction ≠ some .nand → ∀ r, readReg n.x r = readReg s.x r)

/-- R106: WB/END is a copy of MEM/WB. -/
def Obligations.WbEndCopiesMemWb : Prop :=
  ∀ s : State, TickApplies s →
    ∃ n, step s = .next n ∧ n.wbend.instruction = s.memwb.instruction ∧
      n.wbend.writeData = s.memwb.writeData

/-! ### Stall and squash -/

/-- R118: on a load-use match (the condition of R116) the hazard unit inserts a bubble, rolls the pc back
to the fetch address and holds IF/ID; the other ID/EX fields keep what ID computed, and the LW moves
on. -/
def Obligations.LoadUseStallsForOneBubble : Prop :=
  ∀ s : State, TickApplies s →
    op s.idex.instruction = some .lw →
    regB s.idex.instruction = regA s.ifid.instruction ∨
      (op s.ifid.instruction ≠ some .noop ∧
        regB s.idex.instruction = regB s.ifid.instruction) →
    ∃ n, step s = .next n ∧ n.idex.instruction = 0x01C00000#32 ∧
      n.idex.pcPlus1 = s.ifid.pcPlus1 ∧
      n.idex.readRegA = readReg s.x (regA s.ifid.instruction) ∧
      n.idex.readRegB = readReg s.x (regB s.ifid.instruction) ∧
      n.idex.offset = (if op s.ifid.instruction = some .add ∨ op s.ifid.instruction = some .nand
        then 0#32 else immediateField s.ifid.instruction) ∧
      n.pc = fetchAddress s ∧ n.ifid = s.ifid ∧ n.exmem.instruction = s.idex.instruction

/-- No other condition stalls (spec/45_hazard_unit.md, R116, R120): without a load-use match, and
without a taken branch, the IF/ID occupant is promoted. -/
def Obligations.NothingElseStalls : Prop :=
  ∀ s : State, TickApplies s → branchTaken s = false →
    ¬(op s.idex.instruction = some .lw ∧
      (regB s.idex.instruction = regA s.ifid.instruction ∨
        (op s.ifid.instruction ≠ some .noop ∧
          regB s.idex.instruction = regB s.ifid.instruction))) →
    ∃ n, step s = .next n ∧ n.idex.instruction = s.ifid.instruction ∧ n.pc = fetchAddress s + 1#32

/-- A stall lasts one tick (spec/45_hazard_unit.md, R119). -/
def Obligations.NoTwoConsecutiveStalls : Prop :=
  ∀ s : State, TickApplies s → stall s = true → ∃ n, step s = .next n ∧ stall n = false

/-- R101 and R138: a BEQ found taken in EX has the two younger instructions NOOP-ed; only the
`instruction` fields are overwritten, the pc is not changed by it, the BEQ goes into EX/MEM untouched. -/
def Obligations.TakenBranchSquashesTheTwoYounger : Prop :=
  ∀ s : State, TickApplies s → op s.idex.instruction = some .beq → effA s = effB s →
    ∃ n, step s = .next n ∧
      n.idex.instruction = 0x01C00000#32 ∧ n.ifid.instruction = 0x01C00000#32 ∧
      n.idex.pcPlus1 = s.ifid.pcPlus1 ∧
      n.idex.readRegA = readReg s.x (regA s.ifid.instruction) ∧
      n.idex.readRegB = readReg s.x (regB s.ifid.instruction) ∧
      n.idex.offset = (if op s.ifid.instruction = some .add ∨ op s.ifid.instruction = some .nand
        then 0#32 else immediateField s.ifid.instruction) ∧
      n.ifid.pcPlus1 = fetchAddress s + 1#32 ∧ n.pc = fetchAddress s + 1#32 ∧
      n.exmem.instruction = s.idex.instruction ∧ n.exmem.aluResult = 0#32

/-- The redirect (spec/47_branch_squash.md, R139): in the tick after the squash IF fetches from the
branch target, and NOOPs follow the branch through ID and EX. -/
def Obligations.TakenBranchRedirectsTheFetch : Prop :=
  ∀ s : State, PipelineInvariant s → TickApplies s → op s.exmem.instruction = some .beq →
    s.exmem.aluResult = 0#32 →
    ∃ n, step s = .next n ∧
      n.ifid.instruction = s.imem.read s.exmem.branchTarget.toNat ∧
      n.ifid.pcPlus1 = s.exmem.branchTarget + 1#32 ∧ n.pc = s.exmem.branchTarget + 1#32 ∧
      n.idex.instruction = 0x01C00000#32 ∧ n.exmem.instruction = 0x01C00000#32

/-! ### The invariant -/

/-- The reset snapshot meets the invariant. -/
def Obligations.InvariantHoldsAtReset : Prop := PipelineInvariant State.reset

/-- Every image that fits gives a reset snapshot that meets the invariant. -/
def Obligations.InvariantHoldsAtBoot : Prop :=
  ∀ image : List Word, image.length ≤ 65536 → PipelineInvariant (bootState image)

/-- Every step keeps the invariant, from every snapshot that meets it (spec/44_pipeline_stages.md
section 9, R109). -/
def Obligations.StepKeepsThePipelineInvariant : Prop :=
  ∀ s t : State, PipelineInvariant s → step s = .next t → PipelineInvariant t

/-- Every snapshot reachable from the reset snapshot of an image has the properties R109 (c), (d), (e)
and R121 state of reachable snapshots. -/
def Obligations.ReachableSnapshotsAreSquashedAndInterlocked : Prop :=
  ∀ (image : List Word) (k : Nat) (t : State), image.length ≤ 65536 →
    ticks k (bootState image) = .next t →
    (op t.exmem.instruction = some .beq → t.exmem.aluResult = 0#32 →
      t.idex.instruction = 0x01C00000#32 ∧ t.ifid.instruction = 0x01C00000#32) ∧
    (op t.exmem.instruction = some .lw → op t.idex.instruction ≠ some .noop →
      regA t.idex.instruction ≠ regB t.exmem.instruction ∧
      regB t.idex.instruction ≠ regB t.exmem.instruction) ∧
    t.pc.toNat ≤ 65536 ∧ t.ifid.pcPlus1.toNat ≤ 65536 ∧ t.idex.pcPlus1.toNat ≤ 65536

/-- Forwarding is correct (spec/46_forwarding_unit.md, R132): the effective operands of an instruction
in ID/EX other than a NOOP are the registers' values in program order. -/
def Obligations.ForwardedOperandsAreInProgramOrder : Prop :=
  ∀ s : State, PipelineInvariant s → op s.idex.instruction ≠ some .noop →
    effA s = readReg (programOrderRegs s) (regA s.idex.instruction) ∧
    effB s = readReg (programOrderRegs s) (regB s.idex.instruction)

/-- What program order says is reached: the store in EX/MEM after one applied tick, the registers after
two (spec/44_pipeline_stages.md sections 5 and 6). -/
def Obligations.ProgramOrderIsReached : Prop :=
  ∀ s : State, TickApplies s →
    ∃ t, step s = .next t ∧ t.dmem = programOrderMem s ∧
      (TickApplies t → ∃ u, step t = .next u ∧ u.x = programOrderRegs s)

/-! ### The architectural effect of each instruction, in program order -/

/-- ADD (spec/40_arith.md, R70): `x[dest] <- x[regA] + x[regB]`, no other register, no memory word. -/
def Obligations.AddWritesTheSumInProgramOrder : Prop :=
  ∀ (a b d : Reg) (u : BitVec 13) (s : State), PipelineInvariant s → TickApplies s →
    s.idex.instruction = encode (.add a b u d) →
    ∃ t, step s = .next t ∧
      readReg (programOrderRegs t) d =
        readReg (programOrderRegs s) a + readReg (programOrderRegs s) b ∧
      (∀ r, r ≠ d → readReg (programOrderRegs t) r = readReg (programOrderRegs s) r) ∧
      programOrderMem t = programOrderMem s

/-- NAND (spec/40_arith.md, R71): `x[dest] <- ~(x[regA] & x[regB])`, no other register, no memory
word. -/
def Obligations.NandWritesTheNandInProgramOrder : Prop :=
  ∀ (a b d : Reg) (u : BitVec 13) (s : State), PipelineInvariant s → TickApplies s →
    s.idex.instruction = encode (.nand a b u d) →
    ∃ t, step s = .next t ∧
      readReg (programOrderRegs t) d =
        ~~~(readReg (programOrderRegs s) a &&& readReg (programOrderRegs s) b) ∧
      (∀ r, r ≠ d → readReg (programOrderRegs t) r = readReg (programOrderRegs s) r) ∧
      programOrderMem t = programOrderMem s

/-- LW (spec/41_loadstore.md, R75): in bounds, `x[regB] <- dmem[x[regA] + offset]`, no other register,
no memory word; out of bounds, the next tick raises DataAddressOutOfBounds, unless the instruction just
older ends the run first. -/
def Obligations.LoadWritesTheWordInProgramOrder : Prop :=
  ∀ (a b : Reg) (o : BitVec 16) (s : State), PipelineInvariant s → TickApplies s →
    s.idex.instruction = encode (.lw a b o) →
    ∃ t, step s = .next t ∧
      let ea := readReg (programOrderRegs s) a + o.signExtend 32
      (inBounds ea = true →
        readReg (programOrderRegs t) b = (programOrderMem s).read ea.toNat ∧
        (∀ r, r ≠ b → readReg (programOrderRegs t) r = readReg (programOrderRegs s) r) ∧
        programOrderMem t = programOrderMem s) ∧
      (inBounds ea = false → op t.memwb.instruction ≠ some .halt → op t.memwb.instruction ≠ none →
        step t = .next (t.raise (.dataAddressOutOfBounds ea)))

/-- SW (spec/41_loadstore.md, R76): in bounds, `dmem[x[regA] + offset] <- x[regB]`, no other memory
word, no register; out of bounds, the next tick raises DataAddressOutOfBounds, unless the instruction
just older ends the run first. -/
def Obligations.StoreWritesTheWordInProgramOrder : Prop :=
  ∀ (a b : Reg) (o : BitVec 16) (s : State), PipelineInvariant s → TickApplies s →
    s.idex.instruction = encode (.sw a b o) →
    ∃ t, step s = .next t ∧ programOrderRegs t = programOrderRegs s ∧
      let ea := readReg (programOrderRegs s) a + o.signExtend 32
      (inBounds ea = true →
        (programOrderMem t).read ea.toNat = readReg (programOrderRegs s) b ∧
        ∀ c, c ≠ ea.toNat → (programOrderMem t).read c = (programOrderMem s).read c) ∧
      (inBounds ea = false → op t.memwb.instruction ≠ some .halt → op t.memwb.instruction ≠ none →
        step t = .next (t.raise (.dataAddressOutOfBounds ea)))

/-- BEQ (spec/42_control.md, R80): taken exactly when the two registers are equal in program order; then
the next fetch is at `pcPlus1 + offset`; no register, no memory word. -/
def Obligations.BranchIsTakenExactlyWhenEqual : Prop :=
  ∀ (a b : Reg) (o : BitVec 16) (s : State), PipelineInvariant s → TickApplies s →
    s.idex.instruction = encode (.beq a b o) →
    ∃ t, step s = .next t ∧
      programOrderRegs t = programOrderRegs s ∧ programOrderMem t = programOrderMem s ∧
      (readReg (programOrderRegs s) a = readReg (programOrderRegs s) b →
        fetchAddress t = s.idex.pcPlus1 + o.signExtend 32 ∧
        t.idex.instruction = 0x01C00000#32 ∧ t.ifid.instruction = 0x01C00000#32) ∧
      (readReg (programOrderRegs s) a ≠ readReg (programOrderRegs s) b →
        fetchAddress t = fetchAddress s + 1#32 ∧ t.idex.instruction = s.ifid.instruction)

/-- JALR, HALT and NOOP (spec/42_control.md R81, spec/43_system.md R85, R86): no register, no memory
word, and the fetch goes on at the next address (the instruction in ID/EX is no LW and no BEQ). -/
def Obligations.InertInstructionsHaveNoEffect : Prop :=
  ∀ (i : Instr) (s : State), i.mnemonic = .jalr ∨ i.mnemonic = .halt ∨ i.mnemonic = .noop →
    TickApplies s → s.idex.instruction = encode i →
    ∃ t, step s = .next t ∧ programOrderRegs t = programOrderRegs s ∧
      programOrderMem t = programOrderMem s ∧ fetchAddress t = fetchAddress s + 1#32 ∧
      t.idex.instruction = s.ifid.instruction

/-- A load returns the value of the store just ahead of it (spec/20_memory.md section 5, R38): an SW in
EX/MEM, an LW behind it in ID/EX; two ticks later the LW's data is the stored word at the stored
address, the old word elsewhere. -/
def Obligations.LoadReturnsTheStoreJustAhead : Prop :=
  ∀ s t u : State, s.dmem.wf = true → TickApplies s → TickApplies t →
    op s.exmem.instruction = some .sw → op s.idex.instruction = some .lw →
    step s = .next t → step t = .next u →
    u.memwb.instruction = s.idex.instruction ∧
    u.memwb.writeData =
      if t.exmem.aluResult = s.exmem.aluResult then s.exmem.readRegB
      else s.dmem.read t.exmem.aluResult.toNat

/-! ### Each instruction's part completes -/

/-- ADD (spec/40_arith.md, R70, Pipeline): in every running snapshot its part is a next snapshot; in
each stage it stands in it does what R70 says, and nothing else changes. -/
def Obligations.AddPartCompletes : Prop :=
  ∀ (a b d : Reg) (u : BitVec 13) (s : State), s.status = .running →
    ∃ t, exec (.add a b u d) s = .next t ∧
      PartFrame (encode (.add a b u d)) s t ∧
      PartFetchDecode (encode (.add a b u d)) 0#32 s t ∧
      (s.idex.instruction = encode (.add a b u d) →
        t.exmem =
          { instruction := encode (.add a b u d), branchTarget := s.idex.pcPlus1
            aluResult := forward s a s.idex.readRegA + forward s b s.idex.readRegB
            readRegB := forward s b s.idex.readRegB }) ∧
      (s.exmem.instruction = encode (.add a b u d) →
        t.memwb = { instruction := encode (.add a b u d), writeData := s.exmem.aluResult }) ∧
      (s.memwb.instruction = encode (.add a b u d) →
        readReg t.x d = s.memwb.writeData ∧
        t.wbend = { instruction := encode (.add a b u d), writeData := s.memwb.writeData }) ∧
      (∀ r, r ≠ d → readReg t.x r = readReg s.x r) ∧ ∀ c, t.dmem.read c = s.dmem.read c

/-- NAND (spec/40_arith.md, R71, Pipeline). -/
def Obligations.NandPartCompletes : Prop :=
  ∀ (a b d : Reg) (u : BitVec 13) (s : State), s.status = .running →
    ∃ t, exec (.nand a b u d) s = .next t ∧
      PartFrame (encode (.nand a b u d)) s t ∧
      PartFetchDecode (encode (.nand a b u d)) 0#32 s t ∧
      (s.idex.instruction = encode (.nand a b u d) →
        t.exmem =
          { instruction := encode (.nand a b u d), branchTarget := s.idex.pcPlus1
            aluResult := ~~~(forward s a s.idex.readRegA &&& forward s b s.idex.readRegB)
            readRegB := forward s b s.idex.readRegB }) ∧
      (s.exmem.instruction = encode (.nand a b u d) →
        t.memwb = { instruction := encode (.nand a b u d), writeData := s.exmem.aluResult }) ∧
      (s.memwb.instruction = encode (.nand a b u d) →
        readReg t.x d = s.memwb.writeData ∧
        t.wbend = { instruction := encode (.nand a b u d), writeData := s.memwb.writeData }) ∧
      (∀ r, r ≠ d → readReg t.x r = readReg s.x r) ∧ ∀ c, t.dmem.read c = s.dmem.read c

/-- LW (spec/41_loadstore.md, R75, Pipeline), its address in bounds when it stands in EX/MEM. -/
def Obligations.LwPartCompletes : Prop :=
  ∀ (a b : Reg) (o : BitVec 16) (s : State), s.status = .running →
    (s.exmem.instruction = encode (.lw a b o) → inBounds s.exmem.aluResult = true) →
    ∃ t, exec (.lw a b o) s = .next t ∧
      PartFrame (encode (.lw a b o)) s t ∧
      PartFetchDecode (encode (.lw a b o)) (o.signExtend 32) s t ∧
      (s.idex.instruction = encode (.lw a b o) →
        t.exmem =
          { instruction := encode (.lw a b o), branchTarget := s.idex.pcPlus1
            aluResult := forward s a s.idex.readRegA + s.idex.offset
            readRegB := forward s b s.idex.readRegB }) ∧
      (s.exmem.instruction = encode (.lw a b o) →
        t.memwb =
          { instruction := encode (.lw a b o)
            writeData := s.dmem.read s.exmem.aluResult.toNat }) ∧
      (s.memwb.instruction = encode (.lw a b o) →
        readReg t.x b = s.memwb.writeData ∧
        t.wbend = { instruction := encode (.lw a b o), writeData := s.memwb.writeData }) ∧
      (∀ r, r ≠ b → readReg t.x r = readReg s.x r) ∧ ∀ c, t.dmem.read c = s.dmem.read c

/-- SW (spec/41_loadstore.md, R76, Pipeline), its address in bounds when it stands in EX/MEM. The word
stored to is at the EX/MEM latch's `aluResult`, the effective address EX computed. -/
def Obligations.SwPartCompletes : Prop :=
  ∀ (a b : Reg) (o : BitVec 16) (s : State), s.status = .running → s.dmem.wf = true →
    (s.exmem.instruction = encode (.sw a b o) → inBounds s.exmem.aluResult = true) →
    ∃ t, exec (.sw a b o) s = .next t ∧
      PartFrame (encode (.sw a b o)) s t ∧
      PartFetchDecode (encode (.sw a b o)) (o.signExtend 32) s t ∧
      (s.idex.instruction = encode (.sw a b o) →
        t.exmem =
          { instruction := encode (.sw a b o), branchTarget := s.idex.pcPlus1
            aluResult := forward s a s.idex.readRegA + s.idex.offset
            readRegB := forward s b s.idex.readRegB }) ∧
      (s.exmem.instruction = encode (.sw a b o) →
        t.memwb = { instruction := encode (.sw a b o), writeData := s.exmem.aluResult } ∧
        t.dmem.read s.exmem.aluResult.toNat = s.exmem.readRegB ∧
        ∀ c, c ≠ s.exmem.aluResult.toNat → t.dmem.read c = s.dmem.read c) ∧
      (s.memwb.instruction = encode (.sw a b o) →
        t.wbend = { instruction := encode (.sw a b o), writeData := s.memwb.writeData }) ∧
      t.x = s.x

/-- BEQ (spec/42_control.md, R80, Pipeline): it writes no register and no memory word; in EX it latches
the difference and, when taken, the target. -/
def Obligations.BeqPartCompletes : Prop :=
  ∀ (a b : Reg) (o : BitVec 16) (s : State), s.status = .running →
    ∃ t, exec (.beq a b o) s = .next t ∧
      PartFrame (encode (.beq a b o)) s t ∧
      PartFetchDecode (encode (.beq a b o)) (o.signExtend 32) s t ∧
      (s.idex.instruction = encode (.beq a b o) →
        t.exmem.instruction = encode (.beq a b o) ∧
        t.exmem.aluResult = forward s b s.idex.readRegB - forward s a s.idex.readRegA ∧
        t.exmem.readRegB = forward s b s.idex.readRegB ∧
        (forward s a s.idex.readRegA = forward s b s.idex.readRegB →
          branchTaken s = true ∧ t.exmem.takenBranch = true ∧
          t.exmem.branchTarget = s.idex.pcPlus1 + s.idex.offset) ∧
        (forward s a s.idex.readRegA ≠ forward s b s.idex.readRegB →
          branchTaken s = false ∧ t.exmem.takenBranch = false ∧
          t.exmem.branchTarget = s.idex.pcPlus1)) ∧
      (s.exmem.instruction = encode (.beq a b o) →
        t.memwb = { instruction := encode (.beq a b o), writeData := s.exmem.aluResult }) ∧
      (s.memwb.instruction = encode (.beq a b o) →
        t.wbend = { instruction := encode (.beq a b o), writeData := s.memwb.writeData }) ∧
      t.x = s.x ∧ ∀ c, t.dmem.read c = s.dmem.read c

/-- JALR (spec/42_control.md, R81, Pipeline): present in the encoding, without effect; both operands are
forwarded. -/
def Obligations.JalrPartCompletes : Prop :=
  ∀ (a b : Reg) (u : BitVec 16) (s : State), s.status = .running →
    ∃ t, exec (.jalr a b u) s = .next t ∧
      PartFrame (encode (.jalr a b u)) s t ∧
      PartFetchDecode (encode (.jalr a b u)) (u.signExtend 32) s t ∧
      (s.idex.instruction = encode (.jalr a b u) →
        t.exmem =
          { instruction := encode (.jalr a b u), branchTarget := s.idex.pcPlus1
            aluResult := forward s a s.idex.readRegA + s.idex.offset
            readRegB := forward s b s.idex.readRegB }) ∧
      (s.exmem.instruction = encode (.jalr a b u) →
        t.memwb = { instruction := encode (.jalr a b u), writeData := s.exmem.aluResult }) ∧
      (s.memwb.instruction = encode (.jalr a b u) →
        t.wbend = { instruction := encode (.jalr a b u), writeData := s.memwb.writeData }) ∧
      t.x = s.x ∧ ∀ c, t.dmem.read c = s.dmem.read c

/-- NOOP (spec/43_system.md, R86, Pipeline): no effect. -/
def Obligations.NoopPartCompletes : Prop :=
  ∀ (u : BitVec 22) (s : State), s.status = .running →
    ∃ t, exec (.noop u) s = .next t ∧
      PartFrame (encode (.noop u)) s t ∧
      PartFetchDecode (encode (.noop u)) (immediateField (encode (.noop u))) s t ∧
      (s.idex.instruction = encode (.noop u) →
        t.exmem =
          { instruction := encode (.noop u), branchTarget := s.idex.pcPlus1
            aluResult := effA s + s.idex.offset
            readRegB := effB s }) ∧
      (s.exmem.instruction = encode (.noop u) →
        t.memwb = { instruction := encode (.noop u), writeData := s.exmem.aluResult }) ∧
      (s.memwb.instruction = encode (.noop u) →
        t.wbend = { instruction := encode (.noop u), writeData := s.memwb.writeData }) ∧
      t.x = s.x ∧ ∀ c, t.dmem.read c = s.dmem.read c

/-- HALT (spec/43_system.md, R85): in MEM/WB it ends the run and changes nothing else; before that it
passes through the stages like a NOOP. -/
def Obligations.HaltPartCompletes : Prop :=
  ∀ (u : BitVec 22) (s : State), s.status = .running →
    (s.memwb.instruction = encode (.halt u) →
      exec (.halt u) s = .next { s with status := .halted }) ∧
    (s.memwb.instruction ≠ encode (.halt u) →
      ∃ t, exec (.halt u) s = .next t ∧
        PartFrame (encode (.halt u)) s t ∧
        PartFetchDecode (encode (.halt u)) (immediateField (encode (.halt u))) s t ∧
        (s.idex.instruction = encode (.halt u) →
          t.exmem =
            { instruction := encode (.halt u), branchTarget := s.idex.pcPlus1
              aluResult := effA s + s.idex.offset
              readRegB := effB s }) ∧
        (s.exmem.instruction = encode (.halt u) →
          t.memwb = { instruction := encode (.halt u), writeData := s.exmem.aluResult }) ∧
        t.x = s.x ∧ ∀ c, t.dmem.read c = s.dmem.read c)

/-- LW and SW out of bounds: in EX/MEM with an address outside 0 to 65535 the PART of that instruction is
the fault of R163 (spec/60_exceptions.md), and nothing else changes. That a part looks at the snapshot
alone, so that it is this fault behind a HALT or an illegal word in MEM/WB too, is the model's choice
(log entry 2); a whole tick goes by R166 there (`OldestInstructionsFaultIsReported`), and without them
R104 (`DataAddressOutOfBoundsFaults`). -/
def Obligations.LoadAndStoreTrapOutOfBounds : Prop :=
  ∀ (i : Instr) (s : State), i.mnemonic = .lw ∨ i.mnemonic = .sw → s.status = .running →
    s.exmem.instruction = encode i →
    s.exmem.aluResult.toInt < 0 ∨ 65535 < s.exmem.aluResult.toInt →
    exec i s =
      .next { s with status := .faulted (.dataAddressOutOfBounds s.exmem.aluResult) }

/-- An illegal word (spec/43_system.md, R88): without effect in IF/ID, ID/EX and EX/MEM; in MEM/WB it
raises IllegalOpcode in place of retiring. -/
def Obligations.IllegalWordFaultsOnlyWhenItWouldRetire : Prop :=
  ∀ (w : Word) (s : State), w.extractLsb' 25 7 ≠ 0#7 → s.status = .running →
    (s.memwb.instruction = w →
      partOf w s = .next { s with status := .faulted (.illegalOpcode w) }) ∧
    (s.memwb.instruction ≠ w →
      ∃ t, partOf w s = .next t ∧ PartFrame w s t ∧
        PartFetchDecode w (immediateField w) s t ∧
        (s.idex.instruction = w →
          t.exmem =
            { instruction := w, branchTarget := s.idex.pcPlus1
              aluResult := effA s + s.idex.offset, readRegB := effB s }) ∧
        (s.exmem.instruction = w →
          t.memwb = { instruction := w, writeData := s.exmem.aluResult }) ∧
        t.x = s.x ∧ ∀ c, t.dmem.read c = s.dmem.read c)

/-! ### Boot, report -/

/-- R28: the reset value of every state element, with an image loaded. -/
def Obligations.ResetSnapshotIsTheTableOfResetValues : Prop :=
  ∀ image : List Word, image.length ≤ 65536 →
    let s := bootState image
    (∀ r, readReg s.x r = 0#32) ∧ s.pc = 0#32 ∧
    (∀ a, s.imem.read a = image.getD a 0#32 ∧ s.dmem.read a = image.getD a 0#32) ∧
    s.ifid = { instruction := 0x01C00000#32, pcPlus1 := 0#32 } ∧
    s.idex =
      { instruction := 0x01C00000#32, pcPlus1 := 0#32, readRegA := 0#32, readRegB := 0#32
        offset := 0#32 } ∧
    s.exmem =
      { instruction := 0x01C00000#32, branchTarget := 0#32, aluResult := 0#32
        readRegB := 0#32 } ∧
    s.memwb = { instruction := 0x01C00000#32, writeData := 0#32 } ∧
    s.wbend = { instruction := 0x01C00000#32, writeData := 0#32 } ∧
    s.cycles = 0 ∧ s.status = .running

/-- The loader (spec/48_run_loop.md section 3, R152, R153) accepts exactly the well-formed images; line
`a` gives the Word at address `a` of both memories, every other word is 0, and the line count is
`numMemory`; where a load fails there is no reset snapshot. -/
def Obligations.LoaderAcceptsExactlyWellFormedImages : Prop :=
  ∀ lines : List ImageLine,
    ((∃ words, loadImage lines = .ok words) ↔ wellFormedImage lines = true) ∧
    ((∃ s, boot lines = .ok s) ↔ wellFormedImage lines = true) ∧
    ∀ words, loadImage lines = .ok words →
      words.length = lines.length ∧ numMemory words = lines.length ∧
      boot lines = .ok (bootState words) ∧
      (∀ (a : Nat) (v : Int), lines[a]? = some (some v) →
        words[a]? = some (BitVec.ofInt 32 v) ∧
        (bootState words).imem.read a = BitVec.ofInt 32 v ∧
        (bootState words).dmem.read a = BitVec.ofInt 32 v) ∧
      ∀ a, lines.length ≤ a →
        (bootState words).imem.read a = 0#32 ∧ (bootState words).dmem.read a = 0#32

/-- The termination report (spec/48_run_loop.md section 3, R149, R150): the count is `cycles + 1`, the
registers and data memory are the final ones; only a halted run has one. It lists the first `numMemory`
words of data memory, the image's line count, or all of them: an open parameter (D32, log entry 5). -/
def Obligations.OnlyAHaltedRunIsReported : Prop :=
  ∀ (image : List Word) (s : State),
    (s.status ≠ .halted → report image s = none) ∧
    (s.status = .halted →
      ∃ r, report image s = some r ∧ r.cycles = s.cycles + 1 ∧ r.x = s.x ∧
        (r.dmem.length = image.length ∨ r.dmem.length = 65536) ∧
        ∀ a, a < r.dmem.length → r.dmem[a]? = some (s.dmem.read a))

/-! ### Equivalence with the sequential reference -/

/-- Pipelining is transparent (spec/70_reset_and_hazards.md section 5, R195): if the sequential run of an
image halts (without executing a JALR) and no fetch of the pipeline is out of bounds, the pipeline
halts with the same registers and data memory. -/
def Obligations.PipelineHaltsWithTheReferenceState : Prop :=
  ∀ (image : List Word) (n : Nat) (q : SeqState), image.length ≤ 65536 →
    seqRun (imageMemory image) n (seqInit image) = .halted q →
    (∀ k t a, ticks k (bootState image) = .next t → t.status ≠ .faulted (.pcOutOfBounds a)) →
    ∃ k t, ticks k (bootState image) = .next t ∧ t.status = .halted ∧
      t.x = q.x ∧ t.dmem = q.mem

/-- Faulting runs agree too (spec/70_reset_and_hazards.md section 5, R195): if the sequential run faults
with IllegalOpcode or a data bounds fault and no fetch of the pipeline is out of bounds, the pipeline
faults with the same cause and value. -/
def Obligations.PipelineFaultsWithTheReferenceCause : Prop :=
  ∀ (image : List Word) (n : Nat) (f : Fault), image.length ≤ 65536 →
    seqRun (imageMemory image) n (seqInit image) = .faulted f →
    (∀ a, f ≠ .pcOutOfBounds a) →
    (∀ k t a, ticks k (bootState image) = .next t → t.status ≠ .faulted (.pcOutOfBounds a)) →
    ∃ k t, ticks k (bootState image) = .next t ∧ t.status = .faulted f
end

