-- ==== Sys2Proof/Laws/Decode.lean ====
section
/-! SUPPORT. Laws of the decoder and the encoder: what each accessor reads from an encoded word, which
words carry which mnemonic, and that the decoder drops no bit. -/

namespace Sys2Proof

/-! ### The layout as a number -/

theorem toNat_append_eq {m n : Nat} (a : BitVec m) (b : BitVec n) :
    (a ++ b).toNat = a.toNat * 2 ^ n + b.toNat := by
  rw [BitVec.toNat_append, ← Nat.shiftLeft_add_eq_or_of_lt b.isLt, Nat.shiftLeft_eq]

theorem layout_toNat (m : Mnemonic) (f : BitVec 22) :
    (layout m f).toNat = (opcodeNumber m).toNat * 4194304 + f.toNat := by
  simp only [layout, toNat_append_eq, BitVec.toNat_ofNat]; omega

theorem registerFields_toNat (a b : Reg) (l : BitVec 16) :
    (registerFields a b l).toNat = a.toNat * 524288 + b.toNat * 65536 + l.toNat := by
  have := a.isLt; have := b.isLt; have := l.isLt
  simp only [registerFields, toNat_append_eq]; omega

theorem extract_toNat (w : Word) (start len : Nat) :
    (w.extractLsb' start len).toNat = w.toNat / 2 ^ start % 2 ^ len := by
  simp [Nat.shiftRight_eq_div_pow]

/-! ### The opcode -/

theorem opcode_eq_iff (w : Word) (k : BitVec 3) :
    opcode w = (k.toNat : Int) ↔ w.toNat / 4194304 = k.toNat := by
  have hw := w.isLt
  have hk := k.isLt
  have h : opcode w = w.toInt / 4194304 := by
    simp [opcode, BitVec.toInt_sshiftRight, Int.shiftRight_eq_div_pow]
  rw [h, BitVec.toInt_eq_toNat_cond]
  split <;> omega

theorem opcodeNumber_injective {m n : Mnemonic} (h : opcodeNumber m = opcodeNumber n) : m = n := by
  revert h; cases m <;> cases n <;> decide

theorem op_eq_some_iff (w : Word) (m : Mnemonic) :
    op w = some m ↔ w.toNat / 4194304 = (opcodeNumber m).toNat := by
  rw [← opcode_eq_iff]
  constructor
  · intro h
    simpa using List.find?_some h
  · intro h
    have hn : ∀ n : Mnemonic, opcode w = ((opcodeNumber n).toNat : Int) ↔ n = m := by
      intro n
      rw [h]
      constructor
      · intro e
        exact (opcodeNumber_injective (BitVec.eq_of_toNat_eq (by omega))).symm
      · rintro rfl; rfl
    simp only [op, hn, mnemonics]
    cases m <;> decide

theorem op_eq_none_iff (w : Word) : op w = none ↔ w.extractLsb' 25 7 ≠ 0#7 := by
  have hw := w.isLt
  constructor
  · intro h e
    have e' : w.toNat / 33554432 % 128 = 0 := by
      have := congrArg BitVec.toNat e
      rwa [extract_toNat] at this
    have key : ∀ m : Mnemonic, w.toNat / 4194304 ≠ (opcodeNumber m).toNat := by
      intro m hm
      rw [(op_eq_some_iff w m).2 hm] at h
      cases h
    have h0 := key .add; have h1 := key .nand; have h2 := key .lw; have h3 := key .sw
    have h4 := key .beq; have h5 := key .jalr; have h6 := key .halt; have h7 := key .noop
    simp [opcodeNumber] at h0 h1 h2 h3 h4 h5 h6 h7
    omega
  · intro h
    cases hm : op w with
    | none => rfl
    | some m =>
      exfalso
      apply h
      have h1 := (op_eq_some_iff w m).1 hm
      have h2 := (opcodeNumber m).isLt
      apply BitVec.eq_of_toNat_eq
      rw [extract_toNat]
      simp only [BitVec.toNat_ofNat]
      omega

theorem op_layout (m : Mnemonic) (f : BitVec 22) : op (layout m f) = some m := by
  rw [op_eq_some_iff, layout_toNat]
  have := f.isLt
  omega

@[simp] theorem op_encode (i : Instr) : op (encode i) = some i.mnemonic := by
  cases i <;> exact op_layout _ _

/-! ### The register fields and the immediate of a form with two register fields -/

theorem regA_layout (m : Mnemonic) (a b : Reg) (l : BitVec 16) :
    regA (layout m (registerFields a b l)) = a := by
  have := a.isLt; have := b.isLt; have := l.isLt
  apply BitVec.eq_of_toNat_eq
  rw [regA, extract_toNat, layout_toNat, registerFields_toNat]
  omega

theorem regB_layout (m : Mnemonic) (a b : Reg) (l : BitVec 16) :
    regB (layout m (registerFields a b l)) = b := by
  have := a.isLt; have := b.isLt; have := l.isLt
  apply BitVec.eq_of_toNat_eq
  rw [regB, extract_toNat, layout_toNat, registerFields_toNat]
  omega

theorem low_layout (m : Mnemonic) (a b : Reg) (l : BitVec 16) :
    (layout m (registerFields a b l)).extractLsb' 0 16 = l := by
  have := a.isLt; have := b.isLt; have := l.isLt
  apply BitVec.eq_of_toNat_eq
  rw [extract_toNat, layout_toNat, registerFields_toNat]
  omega

theorem immediateField_layout (m : Mnemonic) (a b : Reg) (l : BitVec 16) :
    immediateField (layout m (registerFields a b l)) = signExtend16 l := by
  rw [immediateField, low_layout]

theorem destField_layout (m : Mnemonic) (a b : Reg) (u : BitVec 13) (d : Reg) :
    destField (layout m (registerFields a b (u ++ d))) = d := by
  have := a.isLt; have := b.isLt; have := d.isLt; have := u.isLt
  apply BitVec.eq_of_toNat_eq
  rw [destField, extract_toNat, layout_toNat, registerFields_toNat, toNat_append_eq]
  omega

theorem ignored_layout (m : Mnemonic) (a b : Reg) (u : BitVec 13) (d : Reg) :
    (layout m (registerFields a b (u ++ d))).extractLsb' 3 13 = u := by
  have := a.isLt; have := b.isLt; have := d.isLt; have := u.isLt
  apply BitVec.eq_of_toNat_eq
  rw [extract_toNat, layout_toNat, registerFields_toNat, toNat_append_eq]
  omega

theorem fields_layout (m : Mnemonic) (f : BitVec 22) : (layout m f).extractLsb' 0 22 = f := by
  have := f.isLt
  apply BitVec.eq_of_toNat_eq
  rw [extract_toNat, layout_toNat]
  omega

/-! ### The decoder -/

/-- Everything a successful decoding says: the mnemonic, and that encoding gives the word back. -/
theorem decode_ok {w : Word} {i : Instr} (h : decode w = .ok i) :
    op w = some i.mnemonic ∧ encode i = w := by
  have hw := w.isLt
  unfold decode at h
  split at h <;> first | (cases h; done) | skip
  all_goals
    rename_i hop
    obtain rfl := Except.ok.inj h
    refine ⟨hop, ?_⟩
    have hn := (op_eq_some_iff _ _).1 hop
    apply BitVec.eq_of_toNat_eq
    simp only [encode, layout_toNat, registerFields_toNat, toNat_append_eq, regA, regB, destField,
      extract_toNat, opcodeNumber] at hn ⊢
    omega

theorem encode_of_decode {w : Word} {i : Instr} (h : decode w = .ok i) : encode i = w :=
  (decode_ok h).2

theorem op_of_decode {w : Word} {i : Instr} (h : decode w = .ok i) : op w = some i.mnemonic :=
  (decode_ok h).1

/-- The decoder refuses exactly the illegal words, by name. -/
theorem decode_error_iff (w : Word) : (∃ e, decode w = .error e) ↔ op w = none := by
  unfold decode
  split <;> simp_all

theorem decode_error_name {w : Word} {e : DecodeError} (h : decode w = .error e) :
    e = .illegalOpcode w := by
  unfold decode at h
  split at h <;> first | (cases h; done) | exact (Except.error.inj h).symm

end Sys2Proof
end

