-- ==== Sys2Proof/Laws/Memory.lean ====
section
/-! SUPPORT. Laws of memory and the register file: what a read gives after a write, and that every
memory operation keeps the canonical form. -/

namespace Sys2Proof.Machine

/-! ### Registers -/

@[simp] theorem readReg_writeReg_self (x : Registers) (r : Reg) (v : Word) :
    readReg (writeReg x r v) r = v := by
  simp [readReg, writeReg]

theorem readReg_writeReg_of_ne (x : Registers) {r q : Reg} (v : Word) (h : q ≠ r) :
    readReg (writeReg x r v) q = readReg x q := by
  have : r.toNat ≠ q.toNat := fun e => h (BitVec.eq_of_toNat_eq e.symm)
  simp [readReg, writeReg, Vector.getElem_set_ne, this]

theorem registers_ext {x y : Registers} (h : ∀ r, readReg x r = readReg y r) : x = y := by
  apply Vector.ext
  intro i hi
  have := h (BitVec.ofNat 3 i)
  have e : (BitVec.ofNat 3 i).toNat = i := by simp; omega
  simpa [readReg, e] using this

/-! ### Memory -/

/-- The canonical form without its computation: addresses strictly rising and in range, no listed word
equal to what an unlisted address reads as. -/
theorem Memory.wf_iff (m : Memory) :
    m.wf = true ↔ m.Pairwise (fun p q => p.1 < q.1) ∧
      ∀ c ∈ m, c.1 < Config.memWords ∧ c.2 ≠ Memory.unlisted := by
  simp [Memory.wf]

/-- Where a write lists its words: among those listed before, or the word written. -/
theorem Memory.mem_write {m : Memory} {a : Nat} {v : Word} {c : Nat × Word}
    (h : c ∈ m.write a v) : c ∈ m ∨ (c = (a, v) ∧ v ≠ Memory.unlisted) := by
  induction m with
  | nil =>
    simp only [Memory.write] at h
    split at h <;> simp_all
  | cons d m ih =>
    obtain ⟨k, w⟩ := d
    simp only [Memory.write] at h
    split at h
    · split at h <;> simp_all
      tauto
    · split at h
      · split at h <;> simp_all
        tauto
      · rcases List.mem_cons.1 h with h | h
        · simp [h]
        · rcases ih h with h | h <;> simp [h]

/-- A write keeps the canonical form. -/
theorem Memory.write_wf {m : Memory} {a : Nat} (v : Word) (ha : a < Config.memWords)
    (h : m.wf = true) : (m.write a v).wf = true := by
  induction m with
  | nil =>
    simp only [Memory.write]
    split <;> simp_all [Memory.wf_iff]
  | cons d m ih =>
    obtain ⟨k, w⟩ := d
    rw [Memory.wf_iff, List.pairwise_cons] at h
    obtain ⟨⟨hk, hp⟩, hc⟩ := h
    have hm : Memory.wf m = true :=
      (Memory.wf_iff m).2 ⟨hp, fun c hcm => hc c (List.mem_cons_of_mem _ hcm)⟩
    have hkw := hc (k, w) (by simp)
    have whole : Memory.wf ((k, w) :: m) = true :=
      (Memory.wf_iff _).2 ⟨List.pairwise_cons.2 ⟨hk, hp⟩, hc⟩
    simp only [Memory.write]
    split
    · split
      · exact whole
      · rename_i hak hv
        refine (Memory.wf_iff _).2 ⟨List.pairwise_cons.2 ⟨?_, List.pairwise_cons.2 ⟨hk, hp⟩⟩, ?_⟩
        · intro c hcm
          rcases List.mem_cons.1 hcm with rfl | hcm
          · exact hak
          · exact lt_trans hak (hk c hcm)
        · intro c hcm
          rcases List.mem_cons.1 hcm with rfl | hcm
          · exact ⟨ha, hv⟩
          · exact hc c hcm
    · split
      · split
        · exact hm
        · rename_i hak hv
          refine (Memory.wf_iff _).2 ⟨List.pairwise_cons.2 ⟨?_, hp⟩, ?_⟩
          · intro c hcm
            have := hk c hcm
            simp_all
          · intro c hcm
            rcases List.mem_cons.1 hcm with rfl | hcm
            · exact ⟨ha, hv⟩
            · exact hc c (List.mem_cons_of_mem _ hcm)
      · rename_i hlt hne
        have ihm := (Memory.wf_iff _).1 (ih hm)
        refine (Memory.wf_iff _).2 ⟨List.pairwise_cons.2 ⟨?_, ihm.1⟩, ?_⟩
        · intro c hcm
          rcases Memory.mem_write hcm with h | ⟨rfl, -⟩
          · exact hk c h
          · simp only; omega
        · intro c hcm
          rcases List.mem_cons.1 hcm with rfl | hcm
          · exact hkw
          · exact ihm.2 c hcm

/-- An address below every listed one reads as unlisted. -/
theorem Memory.read_of_lt {m : Memory} {a : Nat} (h : ∀ c ∈ m, a < c.1) :
    m.read a = Memory.unlisted := by
  induction m with
  | nil => rfl
  | cons d m ih =>
    have hd := h d (by simp)
    have : d.1 ≠ a := by omega
    obtain ⟨k, w⟩ := d
    simp only [Memory.read]
    rw [if_neg this]
    exact ih fun c hc => h c (by simp [hc])

/-! ### The image -/

theorem imageMemoryFrom_mem {image : List Word} {a : Nat} {c : Nat × Word}
    (h : c ∈ imageMemoryFrom a image) :
    a ≤ c.1 ∧ c.1 < a + image.length ∧ c.2 ≠ Memory.unlisted := by
  induction image generalizing a with
  | nil => simp [imageMemoryFrom] at h
  | cons w rest ih =>
    simp only [imageMemoryFrom] at h
    simp only [List.length_cons]
    split at h
    · have := ih h
      exact ⟨by omega, by omega, this.2.2⟩
    · rcases List.mem_cons.1 h with rfl | h
      · exact ⟨le_refl _, by simp only; omega, by assumption⟩
      · have := ih h
        exact ⟨by omega, by omega, this.2.2⟩

theorem imageMemoryFrom_wf {image : List Word} {a : Nat}
    (h : a + image.length ≤ Config.memWords) : Memory.wf (imageMemoryFrom a image) = true := by
  refine (Memory.wf_iff _).2 ⟨?_, fun c hc => ?_⟩
  · induction image generalizing a with
    | nil => exact List.Pairwise.nil
    | cons w rest ih =>
      simp only [List.length_cons] at h
      have hr := ih (a := a + 1) (by omega)
      simp only [imageMemoryFrom]
      split
      · exact hr
      · refine List.pairwise_cons.2 ⟨fun c hc => ?_, hr⟩
        have := imageMemoryFrom_mem hc
        omega
  · have := imageMemoryFrom_mem hc
    exact ⟨by omega, this.2.2⟩

/-- The memory of an image that fits is in canonical form. -/
theorem imageMemory_wf {image : List Word} (h : image.length ≤ Config.memWords) :
    Memory.wf (imageMemory image) = true :=
  imageMemoryFrom_wf (by omega)

@[simp] theorem numMemory_nil : numMemory [] = 0 := rfl
@[simp] theorem numMemory_cons (w : Word) (image : List Word) :
    numMemory (w :: image) = numMemory image + 1 := rfl

/-- Everything booting can do: it answers the reset snapshot of the image the loader accepts. -/
theorem boot_eq_ok_iff (lines : List ImageLine) (s : State) :
    boot lines = .ok s ↔ ∃ image, loadImage lines = .ok image ∧ s = bootState image := by
  unfold boot
  cases loadImage lines <;> simp [eq_comm]

/-! ### Read after write -/

/-- Reading after a write: the value written at its address, every other word as before. -/
theorem Memory.read_write {m : Memory} (h : m.wf = true) (a b : Nat) (v : Word) :
    (m.write a v).read b = if a = b then v else m.read b := by
  induction m with
  | nil =>
    simp only [Memory.write]
    split <;> simp_all [Memory.read]
  | cons d m ih =>
    obtain ⟨k, w⟩ := d
    rw [Memory.wf_iff, List.pairwise_cons] at h
    obtain ⟨⟨hk, hp⟩, hc⟩ := h
    have hm : Memory.wf m = true :=
      (Memory.wf_iff m).2 ⟨hp, fun c hcm => hc c (List.mem_cons_of_mem _ hcm)⟩
    have below : ∀ c, c ≤ k → Memory.read m c = Memory.unlisted := fun c hck =>
      Memory.read_of_lt fun e he => lt_of_le_of_lt hck (hk e he)
    simp only [Memory.write]
    split
    · rename_i hak
      split
      · rename_i hv
        by_cases hab : a = b
        · subst hab
          have : k ≠ a := by omega
          simp [Memory.read, this, below a (by omega), hv]
        · simp [hab]
      · simp [Memory.read]
    · split
      · rename_i hak
        subst hak
        split
        · rename_i hv
          by_cases hab : a = b
          · subst hab
            simp [below a (le_refl _), hv]
          · simp [Memory.read, hab]
        · simp only [Memory.read]
          split <;> rfl
      · rename_i hlt hne
        simp only [Memory.read, ih hm]
        by_cases hkb : k = b
        · have : a ≠ b := by omega
          simp [hkb, this]
        · simp [hkb]

/-! ### Bounds -/

/-- An address passes the bounds test exactly when it is below 65536 as an unsigned number. -/
theorem inBounds_iff (a : Word) : inBounds a = true ↔ a.toNat < 65536 := by
  have := a.isLt
  have e : ((Config.memWords : Nat) : Int) = 65536 := rfl
  simp only [inBounds, e, Bool.and_eq_true, decide_eq_true_eq, BitVec.toInt_eq_toNat_cond]
  split <;> omega

theorem address_lt {a : Word} (h : inBounds a = true) : address a < Config.memWords :=
  (inBounds_iff a).1 h

end Sys2Proof.Machine
end

