-- ==== Sys2Proof/Laws/PerInstr.lean ====
section
/-! SUPPORT. Facts about every instruction as syntax, one lemma per constructor.

`LegalEncoding`: an instruction's word is a legal one and carries the instruction's own mnemonic
(R57, R58, R60). -/

namespace Sys2Proof.Laws.LegalEncoding

/-- The encoding of `i` is a well-formed word, and `op` reads `i`'s mnemonic from it. -/
def Statement (i : Instr) : Prop :=
  wellFormedWord (encode i) = true ∧ op (encode i) = some i.mnemonic

theorem wellFormed_encode (i : Instr) : wellFormedWord (encode i) = true := by
  have h : ¬ (encode i).extractLsb' 25 7 ≠ 0#7 := by
    rw [← op_eq_none_iff, op_encode]
    exact Option.some_ne_none _
  simpa [wellFormedWord] using h

theorem add (a b : Reg) (u : BitVec 13) (d : Reg) : Statement (.add a b u d) :=
  ⟨wellFormed_encode _, op_encode _⟩
theorem nand (a b : Reg) (u : BitVec 13) (d : Reg) : Statement (.nand a b u d) :=
  ⟨wellFormed_encode _, op_encode _⟩
theorem lw (a b : Reg) (o : BitVec 16) : Statement (.lw a b o) :=
  ⟨wellFormed_encode _, op_encode _⟩
theorem sw (a b : Reg) (o : BitVec 16) : Statement (.sw a b o) :=
  ⟨wellFormed_encode _, op_encode _⟩
theorem beq (a b : Reg) (o : BitVec 16) : Statement (.beq a b o) :=
  ⟨wellFormed_encode _, op_encode _⟩
theorem jalr (a b : Reg) (u : BitVec 16) : Statement (.jalr a b u) :=
  ⟨wellFormed_encode _, op_encode _⟩
theorem halt (u : BitVec 22) : Statement (.halt u) := ⟨wellFormed_encode _, op_encode _⟩
theorem noop (u : BitVec 22) : Statement (.noop u) := ⟨wellFormed_encode _, op_encode _⟩

end Sys2Proof.Laws.LegalEncoding
end

