-- ==== Sys2Proof/Laws/State.lean ====
section
/-! SUPPORT. The fields of a snapshot after each update of it: the three whole-state updates
(`State.raise`, `State.halt`, `State.counted`), and the stage actions, each of which leaves alone every
field it does not write (the stages write disjoint fields, R91). -/

namespace Sys2Proof.Machine

section updates
variable (s : State) (f : Fault)

@[simp] theorem State.raise_x : (s.raise f).x = s.x := rfl
@[simp] theorem State.raise_pc : (s.raise f).pc = s.pc := rfl
@[simp] theorem State.raise_imem : (s.raise f).imem = s.imem := rfl
@[simp] theorem State.raise_dmem : (s.raise f).dmem = s.dmem := rfl
@[simp] theorem State.raise_ifid : (s.raise f).ifid = s.ifid := rfl
@[simp] theorem State.raise_idex : (s.raise f).idex = s.idex := rfl
@[simp] theorem State.raise_exmem : (s.raise f).exmem = s.exmem := rfl
@[simp] theorem State.raise_memwb : (s.raise f).memwb = s.memwb := rfl
@[simp] theorem State.raise_wbend : (s.raise f).wbend = s.wbend := rfl
@[simp] theorem State.raise_cycles : (s.raise f).cycles = s.cycles := rfl
@[simp] theorem State.raise_status : (s.raise f).status = .faulted f := rfl

@[simp] theorem State.halt_x : s.halt.x = s.x := rfl
@[simp] theorem State.halt_pc : s.halt.pc = s.pc := rfl
@[simp] theorem State.halt_imem : s.halt.imem = s.imem := rfl
@[simp] theorem State.halt_dmem : s.halt.dmem = s.dmem := rfl
@[simp] theorem State.halt_ifid : s.halt.ifid = s.ifid := rfl
@[simp] theorem State.halt_idex : s.halt.idex = s.idex := rfl
@[simp] theorem State.halt_exmem : s.halt.exmem = s.exmem := rfl
@[simp] theorem State.halt_memwb : s.halt.memwb = s.memwb := rfl
@[simp] theorem State.halt_wbend : s.halt.wbend = s.wbend := rfl
@[simp] theorem State.halt_cycles : s.halt.cycles = s.cycles := rfl
@[simp] theorem State.halt_status : s.halt.status = .halted := rfl

@[simp] theorem State.counted_x : s.counted.x = s.x := rfl
@[simp] theorem State.counted_pc : s.counted.pc = s.pc := rfl
@[simp] theorem State.counted_imem : s.counted.imem = s.imem := rfl
@[simp] theorem State.counted_dmem : s.counted.dmem = s.dmem := rfl
@[simp] theorem State.counted_ifid : s.counted.ifid = s.ifid := rfl
@[simp] theorem State.counted_idex : s.counted.idex = s.idex := rfl
@[simp] theorem State.counted_exmem : s.counted.exmem = s.exmem := rfl
@[simp] theorem State.counted_memwb : s.counted.memwb = s.memwb := rfl
@[simp] theorem State.counted_wbend : s.counted.wbend = s.wbend := rfl
@[simp] theorem State.counted_cycles : s.counted.cycles = s.cycles + 1 := rfl
@[simp] theorem State.counted_status : s.counted.status = s.status := rfl

end updates

section stages
variable (a : StageActions) (s n : State)

@[simp] theorem fetchStage_x : (fetchStage a s n).x = n.x := by unfold fetchStage; split <;> rfl
@[simp] theorem fetchStage_imem : (fetchStage a s n).imem = n.imem := by
  unfold fetchStage; split <;> rfl
@[simp] theorem fetchStage_dmem : (fetchStage a s n).dmem = n.dmem := by
  unfold fetchStage; split <;> rfl
@[simp] theorem fetchStage_idex : (fetchStage a s n).idex = n.idex := by
  unfold fetchStage; split <;> rfl
@[simp] theorem fetchStage_exmem : (fetchStage a s n).exmem = n.exmem := by
  unfold fetchStage; split <;> rfl
@[simp] theorem fetchStage_memwb : (fetchStage a s n).memwb = n.memwb := by
  unfold fetchStage; split <;> rfl
@[simp] theorem fetchStage_wbend : (fetchStage a s n).wbend = n.wbend := by
  unfold fetchStage; split <;> rfl
@[simp] theorem fetchStage_cycles : (fetchStage a s n).cycles = n.cycles := by
  unfold fetchStage; split <;> rfl
@[simp] theorem fetchStage_status : (fetchStage a s n).status = n.status := by
  unfold fetchStage; split <;> rfl

@[simp] theorem decodeStage_x : (decodeStage a s n).x = n.x := by unfold decodeStage; split <;> rfl
@[simp] theorem decodeStage_pc : (decodeStage a s n).pc = n.pc := by
  unfold decodeStage; split <;> rfl
@[simp] theorem decodeStage_imem : (decodeStage a s n).imem = n.imem := by
  unfold decodeStage; split <;> rfl
@[simp] theorem decodeStage_dmem : (decodeStage a s n).dmem = n.dmem := by
  unfold decodeStage; split <;> rfl
@[simp] theorem decodeStage_ifid : (decodeStage a s n).ifid = n.ifid := by
  unfold decodeStage; split <;> rfl
@[simp] theorem decodeStage_exmem : (decodeStage a s n).exmem = n.exmem := by
  unfold decodeStage; split <;> rfl
@[simp] theorem decodeStage_memwb : (decodeStage a s n).memwb = n.memwb := by
  unfold decodeStage; split <;> rfl
@[simp] theorem decodeStage_wbend : (decodeStage a s n).wbend = n.wbend := by
  unfold decodeStage; split <;> rfl
@[simp] theorem decodeStage_cycles : (decodeStage a s n).cycles = n.cycles := by
  unfold decodeStage; split <;> rfl
@[simp] theorem decodeStage_status : (decodeStage a s n).status = n.status := by
  unfold decodeStage; split <;> rfl

@[simp] theorem executeStage_x : (executeStage a s n).x = n.x := by
  unfold executeStage; split <;> rfl
@[simp] theorem executeStage_pc : (executeStage a s n).pc = n.pc := by
  unfold executeStage; split <;> rfl
@[simp] theorem executeStage_imem : (executeStage a s n).imem = n.imem := by
  unfold executeStage; split <;> rfl
@[simp] theorem executeStage_dmem : (executeStage a s n).dmem = n.dmem := by
  unfold executeStage; split <;> rfl
@[simp] theorem executeStage_ifid : (executeStage a s n).ifid = n.ifid := by
  unfold executeStage; split <;> rfl
@[simp] theorem executeStage_idex : (executeStage a s n).idex = n.idex := by
  unfold executeStage; split <;> rfl
@[simp] theorem executeStage_memwb : (executeStage a s n).memwb = n.memwb := by
  unfold executeStage; split <;> rfl
@[simp] theorem executeStage_wbend : (executeStage a s n).wbend = n.wbend := by
  unfold executeStage; split <;> rfl
@[simp] theorem executeStage_cycles : (executeStage a s n).cycles = n.cycles := by
  unfold executeStage; split <;> rfl
@[simp] theorem executeStage_status : (executeStage a s n).status = n.status := by
  unfold executeStage; split <;> rfl

@[simp] theorem memoryStage_x : (memoryStage a s n).x = n.x := by unfold memoryStage; split <;> rfl
@[simp] theorem memoryStage_pc : (memoryStage a s n).pc = n.pc := by
  unfold memoryStage; split <;> rfl
@[simp] theorem memoryStage_imem : (memoryStage a s n).imem = n.imem := by
  unfold memoryStage; split <;> rfl
@[simp] theorem memoryStage_ifid : (memoryStage a s n).ifid = n.ifid := by
  unfold memoryStage; split <;> rfl
@[simp] theorem memoryStage_idex : (memoryStage a s n).idex = n.idex := by
  unfold memoryStage; split <;> rfl
@[simp] theorem memoryStage_exmem : (memoryStage a s n).exmem = n.exmem := by
  unfold memoryStage; split <;> rfl
@[simp] theorem memoryStage_wbend : (memoryStage a s n).wbend = n.wbend := by
  unfold memoryStage; split <;> rfl
@[simp] theorem memoryStage_cycles : (memoryStage a s n).cycles = n.cycles := by
  unfold memoryStage; split <;> rfl
@[simp] theorem memoryStage_status : (memoryStage a s n).status = n.status := by
  unfold memoryStage; split <;> rfl

@[simp] theorem writebackStage_pc : (writebackStage a s n).pc = n.pc := by
  unfold writebackStage; split <;> rfl
@[simp] theorem writebackStage_imem : (writebackStage a s n).imem = n.imem := by
  unfold writebackStage; split <;> rfl
@[simp] theorem writebackStage_dmem : (writebackStage a s n).dmem = n.dmem := by
  unfold writebackStage; split <;> rfl
@[simp] theorem writebackStage_ifid : (writebackStage a s n).ifid = n.ifid := by
  unfold writebackStage; split <;> rfl
@[simp] theorem writebackStage_idex : (writebackStage a s n).idex = n.idex := by
  unfold writebackStage; split <;> rfl
@[simp] theorem writebackStage_exmem : (writebackStage a s n).exmem = n.exmem := by
  unfold writebackStage; split <;> rfl
@[simp] theorem writebackStage_memwb : (writebackStage a s n).memwb = n.memwb := by
  unfold writebackStage; split <;> rfl
@[simp] theorem writebackStage_cycles : (writebackStage a s n).cycles = n.cycles := by
  unfold writebackStage; split <;> rfl
@[simp] theorem writebackStage_status : (writebackStage a s n).status = n.status := by
  unfold writebackStage; split <;> rfl

end stages

end Sys2Proof.Machine
end

