-- ==== Sys2Proof/Laws/Step.lean ====
section
/-! SUPPORT. Everything a part, a tick and a step can do, said once.

`rowOf` is the table of R108 as a function of a word; `partOf_eq_perform` says that the part of the
instruction a word names is `perform` of its row. `perform_cases` is everything a part can do. The
`step_…` theorems are everything a step can do, one for each of its six cases; `step_cases` says that
they are all. -/

namespace Sys2Proof.Machine

/-! ### The rows of R108 -/

/-- The row of R108 for the word `w`. -/
def rowOf (w : Word) : StageActions :=
  { word := w
    offset := if op w = some .add ∨ op w = some .nand then 0#32 else immediateField w
    alu := Reference.alu (op w)
    branches := decide (op w = some .beq)
    memory :=
      match op w with
      | some .lw => .load
      | some .sw => .store
      | _ => .none
    retire :=
      match op w with
      | some .lw => .write (regB w)
      | some .add => .write (destField w)
      | some .nand => .write (destField w)
      | some .halt => .halt
      | none => .illegal
      | _ => .nothing }

/-- The part of an instruction is its row performed. -/
theorem exec_eq_perform (i : Instr) (s : State) : exec i s = perform (rowOf (encode i)) s := by
  cases i with
  | add a b u d =>
    simp only [exec, execAdd, rowOf, op_encode, Instr.mnemonic]
    simp [encode, destField_layout]
    rfl
  | nand a b u d =>
    simp only [exec, execNand, rowOf, op_encode, Instr.mnemonic]
    simp [encode, destField_layout]
    rfl
  | lw a b o =>
    simp only [exec, execLw, rowOf, op_encode, Instr.mnemonic]
    simp [encode, regB_layout, immediateField_layout, effectiveAddress]
    rfl
  | sw a b o =>
    simp only [exec, execSw, rowOf, op_encode, Instr.mnemonic]
    simp [encode, immediateField_layout, effectiveAddress]
    rfl
  | beq a b o =>
    simp only [exec, execBeq, rowOf, op_encode, Instr.mnemonic]
    simp [encode, immediateField_layout, branchDifference]
    rfl
  | jalr a b u =>
    simp only [exec, execJalr, rowOf, op_encode, Instr.mnemonic]
    simp [encode, immediateField_layout, effectiveAddress]
    rfl
  | halt u =>
    simp only [exec, execHalt, rowOf, op_encode, Instr.mnemonic]
    simp [effectiveAddress]
    rfl
  | noop u =>
    simp only [exec, execNoop, rowOf, op_encode, Instr.mnemonic]
    simp [effectiveAddress]
    rfl

/-- The part of the instruction a word names is its row performed, an illegal word's too. -/
theorem partOf_eq_perform (w : Word) (s : State) : partOf w s = perform (rowOf w) s := by
  unfold partOf
  cases h : decode w with
  | ok i =>
    have := encode_of_decode h
    simp [exec_eq_perform, this]
  | error e =>
    have h : op w = none := (decode_error_iff w).1 ⟨e, h⟩
    simp only [execIllegal, rowOf, h]
    simp [effectiveAddress]
    rfl

@[simp] theorem rowOf_word (w : Word) : (rowOf w).word = w := rfl

/-! ### What each stage writes when the row stands in it -/

section own
variable (s n : State)

@[simp] theorem fetchStage_ifid_own {w : Word} (h : fetchedWord s = some w) :
    (fetchStage (rowOf w) s n).ifid = nextIfId s w := by simp [fetchStage, h]
@[simp] theorem fetchStage_pc_own {w : Word} (h : fetchedWord s = some w) :
    (fetchStage (rowOf w) s n).pc = nextPc s := by simp [fetchStage, h]
@[simp] theorem decodeStage_idex_own :
    (decodeStage (rowOf s.ifid.instruction) s n).idex =
      nextIdEx s (rowOf s.ifid.instruction).offset := by simp [decodeStage]
@[simp] theorem executeStage_exmem_own :
    (executeStage (rowOf s.idex.instruction) s n).exmem =
      nextExMem s ((rowOf s.idex.instruction).alu (effA s) (effB s) s.idex.offset)
        (rowOf s.idex.instruction).branches := by simp [executeStage]
@[simp] theorem memoryStage_memwb_own :
    (memoryStage (rowOf s.exmem.instruction) s n).memwb =
      nextMemWb s (rowOf s.exmem.instruction).memory := by simp [memoryStage]
@[simp] theorem memoryStage_dmem_own :
    (memoryStage (rowOf s.exmem.instruction) s n).dmem =
      nextDmem s (rowOf s.exmem.instruction).memory := by simp [memoryStage]
@[simp] theorem writebackStage_x_own :
    (writebackStage (rowOf s.memwb.instruction) s n).x =
      nextRegisters s (rowOf s.memwb.instruction).retire := by simp [writebackStage]
@[simp] theorem writebackStage_wbend_own :
    (writebackStage (rowOf s.memwb.instruction) s n).wbend = nextWbEnd s := by
  simp [writebackStage]

end own

/-! ### The part of one instruction -/

/-- Everything a part can do. -/
theorem perform_cases (a : StageActions) (s : State) :
    (s.status ≠ .running ∧ perform a s = .next s) ∨
    (s.status = .running ∧ ∃ t, prologue a s = some t ∧ perform a s = .next t) ∨
    (s.status = .running ∧ prologue a s = none ∧ ∃ t, dataFault a s = some t ∧
      perform a s = .next t) ∨
    (s.status = .running ∧ prologue a s = none ∧ dataFault a s = none ∧
      perform a s = .next (fetchStage a s (decodeStage a s (executeStage a s (memoryStage a s
        (writebackStage a s s.counted)))))) := by
  unfold perform
  split
  · split
    · rename_i hs _ t ht
      exact .inr (.inl ⟨hs, t, ht, rfl⟩)
    · rename_i hs _ hp
      split
      · rename_i _ t ht
        exact .inr (.inr (.inl ⟨hs, hp, t, ht, rfl⟩))
      · rename_i _ hd
        exact .inr (.inr (.inr ⟨hs, hp, hd, rfl⟩))
  · rename_i hs
    exact .inl ⟨hs, rfl⟩

/-- The prologue stops no row when MEM/WB holds neither a HALT nor an illegal word. -/
theorem prologue_rowOf_eq_none {s : State} (h1 : op s.memwb.instruction ≠ some .halt)
    (h2 : op s.memwb.instruction ≠ none) (w : Word) : prologue (rowOf w) s = none := by
  unfold prologue
  split
  · rename_i hw
    have hw : s.memwb.instruction = w := hw
    subst hw
    cases ho : op s.memwb.instruction with
    | none => exact absurd ho h2
    | some m =>
      rw [ho] at h1
      cases m <;> first | exact absurd rfl h1 | simp only [rowOf, ho]
  · rfl

/-- The data bounds test stops no row when the address in EX/MEM is in bounds or is no address. -/
theorem dataFault_rowOf_eq_none {s : State}
    (h : accessesMemory s.exmem.instruction → inBounds s.exmem.aluResult = true) (w : Word) :
    dataFault (rowOf w) s = none := by
  unfold dataFault
  split
  · rename_i hw
    obtain ⟨hw, hm, hb⟩ := hw
    have hw : s.exmem.instruction = w := hw
    subst hw
    have : accessesMemory s.exmem.instruction := by
      unfold accessesMemory
      cases ho : op s.exmem.instruction with
      | none => simp [rowOf, ho] at hm
      | some m => cases m <;> simp [rowOf, ho] at hm ⊢
    rw [h this] at hb
    cases hb
  · rfl

/-- The part of a row in an applied tick. -/
theorem perform_of_applies {s : State} (h : TickApplies s) (w : Word) :
    perform (rowOf w) s = .next (fetchStage (rowOf w) s (decodeStage (rowOf w) s
      (executeStage (rowOf w) s (memoryStage (rowOf w) s
        (writebackStage (rowOf w) s s.counted))))) := by
  unfold perform
  rw [if_pos h.running, prologue_rowOf_eq_none h.notHalt h.notIllegal,
    dataFault_rowOf_eq_none h.dataInBounds]

/-! ### The six cases of a step -/

/-- The snapshot after an applied tick, every field in terms of the old one. -/
def appliedTick (s : State) : State :=
  { x := nextRegisters s (rowOf s.memwb.instruction).retire
    pc := nextPc s
    imem := s.imem
    dmem := nextDmem s (rowOf s.exmem.instruction).memory
    ifid := nextIfId s (s.imem.read (address (fetchAddress s)))
    idex := nextIdEx s (rowOf s.ifid.instruction).offset
    exmem := nextExMem s
      ((rowOf s.idex.instruction).alu (effA s) (effB s) s.idex.offset)
      (rowOf s.idex.instruction).branches
    memwb := nextMemWb s (rowOf s.exmem.instruction).memory
    wbend := nextWbEnd s
    cycles := s.cycles + 1
    status := .running }

/-- A stopped machine holds. -/
theorem step_stopped {s : State} (h : s.status ≠ .running) : step s = .next s := by
  simp [step, clock, h]

/-- A HALT in MEM/WB ends the run. -/
theorem step_halt {s : State} (h : s.status = .running)
    (hm : op s.memwb.instruction = some .halt) : step s = .next s.halt := by
  have : perform (rowOf s.memwb.instruction) s = .next s.halt := by
    simp [perform, h, prologue, rowOf, hm]
  simp [step, clock, h, tick, partOf_eq_perform, this, ifRunning]

/-- An illegal word in MEM/WB faults. -/
theorem step_illegal {s : State} (h : s.status = .running) (hm : op s.memwb.instruction = none) :
    step s = .next (s.raise (.illegalOpcode s.memwb.instruction)) := by
  have : perform (rowOf s.memwb.instruction) s =
      .next (s.raise (.illegalOpcode s.memwb.instruction)) := by
    simp [perform, h, prologue, rowOf, hm]
  simp [step, clock, h, tick, partOf_eq_perform, this, ifRunning]

/-- A part in a tick that passes the prologue either runs on or takes the data fault. -/
theorem perform_running_or_fault {s : State} (h : s.status = .running)
    (h1 : op s.memwb.instruction ≠ some .halt) (h2 : op s.memwb.instruction ≠ none) (w : Word) :
    (∃ t, perform (rowOf w) s = .next t ∧ t.status = .running) ∨
      perform (rowOf w) s = .next (s.raise (.dataAddressOutOfBounds s.exmem.aluResult)) := by
  rcases perform_cases (rowOf w) s with ⟨hs, -⟩ | ⟨-, t, ht, -⟩ | ⟨-, -, t, ht, e⟩ | ⟨-, -, -, e⟩
  · exact absurd h hs
  · rw [prologue_rowOf_eq_none h1 h2] at ht
    cases ht
  · right
    unfold dataFault at ht
    split at ht
    · rw [e, ← Option.some.inj ht]
    · cases ht
  · left
    exact ⟨_, e, by simp [h]⟩

/-- An LW or SW in EX/MEM whose address is out of bounds faults. -/
theorem step_dataFault {s : State} (h : s.status = .running)
    (h1 : op s.memwb.instruction ≠ some .halt) (h2 : op s.memwb.instruction ≠ none)
    (hk : accessesMemory s.exmem.instruction) (hb : inBounds s.exmem.aluResult = false) :
    step s = .next (s.raise (.dataAddressOutOfBounds s.exmem.aluResult)) := by
  have hp : perform (rowOf s.exmem.instruction) s =
      .next (s.raise (.dataAddressOutOfBounds s.exmem.aluResult)) := by
    have hm : (rowOf s.exmem.instruction).memory ≠ .none := by
      rcases hk with hk | hk <;> simp [rowOf, hk]
    have hd : dataFault (rowOf s.exmem.instruction) s =
        some (s.raise (.dataAddressOutOfBounds s.exmem.aluResult)) :=
      if_pos ⟨rfl, hm, hb⟩
    unfold perform
    rw [if_pos h, prologue_rowOf_eq_none h1 h2, hd]
  rcases perform_running_or_fault h h1 h2 s.memwb.instruction with ⟨t, e, ht⟩ | e
  · simp [step, clock, h, tick, partOf_eq_perform, e, ifRunning, ht, hp]
  · simp [step, clock, h, tick, partOf_eq_perform, e, ifRunning]

/-- A fetch address out of bounds faults. -/
theorem step_pcFault {s : State} (h : s.status = .running)
    (h1 : op s.memwb.instruction ≠ some .halt) (h2 : op s.memwb.instruction ≠ none)
    (h3 : accessesMemory s.exmem.instruction → inBounds s.exmem.aluResult = true)
    (hf : inBounds (fetchAddress s) = false) :
    step s = .next (s.raise (.pcOutOfBounds (fetchAddress s))) := by
  have hp : ∀ w, ∃ t, perform (rowOf w) s = .next t ∧ t.status = .running := by
    intro w
    have e := prologue_rowOf_eq_none h1 h2 w
    have e' := dataFault_rowOf_eq_none h3 w
    exact ⟨fetchStage (rowOf w) s (decodeStage (rowOf w) s (executeStage (rowOf w) s
      (memoryStage (rowOf w) s (writebackStage (rowOf w) s s.counted)))),
      by simp [perform, h, e, e'], by simp [h]⟩
  obtain ⟨t, e, ht⟩ := hp s.memwb.instruction
  obtain ⟨u, e', hu⟩ := hp s.exmem.instruction
  simp [step, clock, h, tick, partOf_eq_perform, e, ifRunning, ht, e', hu, fetchedWord, hf]

/-- An applied tick. -/
theorem step_applies {s : State} (h : TickApplies s) : step s = .next (appliedTick s) := by
  have hf : fetchedWord s = some (s.imem.read (address (fetchAddress s))) := by
    simp [fetchedWord, h.fetchInBounds]
  simp only [step, clock, h.running, if_true, tick, partOf_eq_perform, perform_of_applies h,
    ifRunning, fetchStage_status, decodeStage_status, executeStage_status, memoryStage_status,
    writebackStage_status, State.counted_status, hf]
  simp [assemble, appliedTick, hf]

/-- Every snapshot is in one of the six cases. -/
theorem step_cases (s : State) :
    (s.status ≠ .running ∧ step s = .next s) ∨
    (s.status = .running ∧ op s.memwb.instruction = some .halt ∧ step s = .next s.halt) ∨
    (s.status = .running ∧ op s.memwb.instruction = none ∧
      step s = .next (s.raise (.illegalOpcode s.memwb.instruction))) ∨
    (s.status = .running ∧ op s.memwb.instruction ≠ some .halt ∧ op s.memwb.instruction ≠ none ∧
      accessesMemory s.exmem.instruction ∧ inBounds s.exmem.aluResult = false ∧
      step s = .next (s.raise (.dataAddressOutOfBounds s.exmem.aluResult))) ∨
    (s.status = .running ∧ op s.memwb.instruction ≠ some .halt ∧ op s.memwb.instruction ≠ none ∧
      (accessesMemory s.exmem.instruction → inBounds s.exmem.aluResult = true) ∧
      inBounds (fetchAddress s) = false ∧
      step s = .next (s.raise (.pcOutOfBounds (fetchAddress s)))) ∨
    (TickApplies s ∧ step s = .next (appliedTick s)) := by
  by_cases h : s.status = .running
  · by_cases h1 : op s.memwb.instruction = some .halt
    · exact .inr (.inl ⟨h, h1, step_halt h h1⟩)
    · by_cases h2 : op s.memwb.instruction = none
      · exact .inr (.inr (.inl ⟨h, h2, step_illegal h h2⟩))
      · by_cases h3 : accessesMemory s.exmem.instruction → inBounds s.exmem.aluResult = true
        · cases h4 : inBounds (fetchAddress s) with
          | false =>
            exact .inr (.inr (.inr (.inr (.inl ⟨h, h1, h2, h3, rfl, step_pcFault h h1 h2 h3 h4⟩))))
          | true =>
            have ha : TickApplies s := ⟨h, h1, h2, h3, h4⟩
            exact .inr (.inr (.inr (.inr (.inr ⟨ha, step_applies ha⟩))))
        · rw [Classical.not_imp, Bool.not_eq_true] at h3
          exact .inr (.inr (.inr (.inl ⟨h, h1, h2, h3.1, h3.2, step_dataFault h h1 h2 h3.1 h3.2⟩)))
  · exact .inl ⟨h, step_stopped h⟩

/-- Every snapshot has a next one, so a run never stops early. -/
theorem ticks_succ {s t : State} (h : step s = .next t) (k : Nat) :
    ticks (k + 1) s = ticks k t := by
  have h' : Sys2Proof.core.step s = .next t := h
  simp only [ticks, Host.Core.run, h']
  rfl

@[simp] theorem ticks_zero (s : State) : ticks 0 s = .next s := rfl

end Sys2Proof.Machine
end

