-- ==== Sys2Proof/Tests/Slice0.lean ====
section
/-! SUPPORT. Tests: expected results are the vectors of spec/95_test_vectors.md (named V<n>) and the
examples of the instruction rules, never the model's own answers. After them, one witness for each
obligation that has hypotheses. -/

namespace Sys2Proof.Tests

open Sys2Proof Sys2Proof.Machine

/-! ### Well-formedness: each check refuses an ill-formed term -/

/-- V4: the smallest positive illegal word. -/
theorem test_wellFormedWord_refuses : wellFormedWord 0x02000000#32 = false := by decide
/-- V6: the largest legal word. -/
theorem test_wellFormedWord_accepts : wellFormedWord 0x01FFFFFF#32 = true := by decide
/-- A line that is no integer (R153). -/
theorem test_wellFormedLine_refuses_text : wellFormedLine none = false := by decide
/-- An integer one above the range of a Word (R152). -/
theorem test_wellFormedLine_refuses_large : wellFormedLine (some 2147483648) = false := by decide
/-- An integer one below the range of a Word (R152). -/
theorem test_wellFormedLine_refuses_small : wellFormedLine (some (-2147483649)) = false := by decide
/-- An image of 65537 lines (R153). -/
theorem test_wellFormedImage_refuses_long :
    wellFormedImage (List.replicate 65537 (some 0)) = false := by
  rw [wellFormedImage, List.length_replicate, decide_eq_false (by decide), Bool.and_false]
/-- An image with a malformed line (R153). -/
theorem test_wellFormedImage_refuses_line : wellFormedImage [some 1, none] = false := by decide

/-! ### Decoding: words written out from the layout of R50, field by field -/

/-- 0000000 000 010 011 0000000000000 001 (V1, R70). -/
theorem test_decode_add : decode 0b00000000000100110000000000000001#32 = .ok (.add 2 3 0 1) := by
  decide
/-- 0000000 001 010 011 0000000000000 001 (R71). -/
theorem test_decode_nand : decode 0b00000000010100110000000000000001#32 = .ok (.nand 2 3 0 1) := by
  decide
/-- 0000000 010 001 010 0000000000000011 (V16, R75). -/
theorem test_decode_lw : decode 0b00000000100010100000000000000011#32 = .ok (.lw 1 2 3) := by decide
/-- 0000000 011 001 010 1111111111111100 (V2, R76). -/
theorem test_decode_sw : decode 0b00000000110010101111111111111100#32 = .ok (.sw 1 2 (-4)) := by
  decide
/-- 0000000 100 001 010 0000000000000101 (R80). -/
theorem test_decode_beq : decode 0b00000001000010100000000000000101#32 = .ok (.beq 1 2 5) := by
  decide
/-- 0000000 101 001 010 0000000000000000 (R81). -/
theorem test_decode_jalr : decode 0b00000001010010100000000000000000#32 = .ok (.jalr 1 2 0) := by
  decide
/-- 0000000 110 followed by zeros (HALTWORD, R59). -/
theorem test_decode_halt : decode 0b00000001100000000000000000000000#32 = .ok (.halt 0) := by decide
/-- 0000000 111 followed by zeros (NOOPWORD, R59, V5). -/
theorem test_decode_noop : decode 0b00000001110000000000000000000000#32 = .ok (.noop 0) := by decide
/-- V3, V4, V7: bits 31:25 not all zero. -/
theorem test_decode_illegal :
    decode 0xFFFFFFFF#32 = .error (.illegalOpcode 0xFFFFFFFF#32) ∧
    decode 0x02000000#32 = .error (.illegalOpcode 0x02000000#32) ∧
    decode 0x80000000#32 = .error (.illegalOpcode 0x80000000#32) := by decide
/-- V3, V7: the opcode is a signed shift. -/
theorem test_opcode_signed : opcode 0xFFFFFFFF#32 = -1 ∧ opcode 0x80000000#32 = -512 := by decide
/-- The table's numbering: a row's bits are the Word itself. -/
theorem test_decodeTableWord : decodeTableWord 32 0x008A0003 = some (.lw 1 2 3) := by decide

/-! ### One step -/

/-- A snapshot that differs from reset in ID/EX, EX/MEM, MEM/WB, WB/END and `pc` (part 2.7). -/
def snapshot (pc : Word) (idex : IdEx) (exmem : ExMem) (memwb : MemWb) (wbend : WbEnd) : State :=
  { State.reset with pc := pc, idex := idex, exmem := exmem, memwb := memwb, wbend := wbend }

/-- A latch that holds a NOOP, as at reset. -/
def idleEx : IdEx := State.reset.idex
/-- EX/MEM as at reset. -/
def idleMem : ExMem := State.reset.exmem
/-- MEM/WB as at reset. -/
def idleWb : MemWb := State.reset.memwb
/-- WB/END as at reset. -/
def idleEnd : WbEnd := State.reset.wbend

/-- What `f` reads off the next state; `none` where there is none. -/
def after (r : Result) {α : Type} (f : State → α) : Option α :=
  match r with
  | .next t => some (f t)
  | _ => none

/-- V36: the snapshot. -/
def v36 : State :=
  snapshot 10
    { instruction := 589826, pcPlus1 := 9, readRegA := 44, readRegB := 44, offset := 0 }
    { instruction := 1769473, branchTarget := 8, aluResult := 11, readRegB := 0 }
    { instruction := 1769473, writeData := 22 } { instruction := 1769473, writeData := 33 }
/-- V36: ADD takes both operands from the nearest tier. -/
theorem test_add_forwards_nearest :
    after (step v36) (fun t => (t.exmem.aluResult, t.exmem.readRegB, t.exmem.branchTarget)) =
      some (22, 11, 9) := by decide
/-- V36: the older ADD commits; the next one passes its result on. -/
theorem test_add_commits :
    after (step v36) (fun t => (readReg t.x 1, t.memwb.writeData, t.wbend.writeData, t.pc)) =
      some (22, 11, 22, 11) := by decide

/-- V37: the snapshot. -/
def v37 : State :=
  snapshot 10
    { instruction := 4849667, pcPlus1 := 9, readRegA := 44, readRegB := 55, offset := 0 }
    { instruction := 12648449, branchTarget := 0, aluResult := 1, readRegB := 77 }
    { instruction := 8454149, writeData := 12 } { instruction := 2, writeData := 10 }
/-- V37: NAND takes 12 from MEM/WB and 10 from WB/END; the SW in EX/MEM is no source. -/
theorem test_nand_forwards :
    after (step v37) (fun t => (t.exmem.aluResult, t.exmem.readRegB)) = some (-9, 10) := by decide
/-- V37: the SW stores into data memory only. -/
theorem test_sw_stores :
    after (step v37) (fun t => (t.dmem.read 1, t.imem.read 1, t.memwb.writeData)) =
      some (77, 0, 1) := by decide
/-- V37: the LW in MEM/WB commits to its `regB`. -/
theorem test_lw_commits : after (step v37) (fun t => readReg t.x 1) = some 12 := by decide

/-- V38: the LW reads data memory; the bubble behind it takes its address. -/
theorem test_lw_reads :
    after (step { snapshot 2 { idleEx with pcPlus1 := 2 }
        { instruction := 8912899, branchTarget := 1, aluResult := 3, readRegB := 0 } idleWb idleEnd
        with dmem := [(3, 9)], imem := [(3, 9)] })
      (fun t => (t.memwb.writeData, t.exmem.aluResult, t.exmem.readRegB)) = some (9, 3, 3) := by
  decide

/-- V42, third tick: `beq 0 0 -2` at address 0 is taken to -1 and the word behind it is squashed. -/
theorem test_beq_taken :
    after (step (snapshot 2
        { instruction := 16842750, pcPlus1 := 1, readRegA := 0, readRegB := 0, offset := -2 }
        idleMem idleWb idleEnd))
      (fun t => (t.exmem.branchTarget, t.ifid.instruction, t.idex.instruction, t.pc)) =
      some (-1, noopWord, noopWord, 3) := by decide
/-- V42, fourth tick: the redirected fetch is out of bounds. -/
theorem test_beq_redirect_faults :
    after (step (snapshot 3 idleEx
        { instruction := 16842750, branchTarget := -1, aluResult := 0, readRegB := 0 } idleWb
        idleEnd)) (fun t => (t.status, t.cycles)) =
      some (.faulted (.pcOutOfBounds (-1)), 0) := by decide
/-- V31: JALR in EX adds its ignored field to its forwarded `regA` and writes no register. -/
theorem test_jalr_inert :
    after (step (snapshot 3
        { instruction := 21626880, pcPlus1 := 2, readRegA := 0, readRegB := 0, offset := 0 }
        idleMem { instruction := 8454148, writeData := 20 } idleEnd))
      (fun t => (t.exmem.aluResult, t.exmem.branchTarget, t.pc)) = some (20, 2, 4) := by decide
/-- V31: JALR in MEM/WB links nothing. -/
theorem test_jalr_no_link :
    after (step (snapshot 6 idleEx idleMem { instruction := 21626880, writeData := 20 } idleEnd))
      (fun t => (readReg t.x 2, t.wbend.writeData)) = some (0, 20) := by decide
/-- V44: HALT comes before an out-of-bounds LW and an out-of-bounds fetch, and counts no tick. -/
theorem test_halt_first :
    after (step (snapshot 70000 idleEx
        { instruction := 8519679, branchTarget := 0, aluResult := -1, readRegB := 0 }
        { instruction := haltWord, writeData := 0 } idleEnd))
      (fun t => (t.status, t.cycles, t.pc)) = some (.halted, 0, 70000) := by decide
/-- R85, R61: any HALT word stops the machine. -/
theorem test_halt_any_word :
    after (step (snapshot 5 idleEx idleMem { instruction := 25198592, writeData := 0 } idleEnd))
      (fun t => t.status) = some .halted := by decide
/-- V33a, V33b, V33c: a NOOP's `regA` field can stall, its `regB` field cannot. -/
theorem test_noop_stall :
    stallCondition 8912901 29360128 = true ∧ stallCondition 8454147 29425664 = false ∧
    stallCondition 8454147 29884416 = true := by decide
/-- R86: a NOOP in MEM/WB writes no register. -/
theorem test_noop_retires :
    after (step (snapshot 5 idleEx idleMem { instruction := 0x01FFFFFF, writeData := 9 } idleEnd))
      (fun t => (readReg t.x 7, t.status)) = some (0, .running) := by decide
/-- V32, V34, V35: the stall condition on the other opcodes. -/
theorem test_stall_condition :
    stallCondition 8454147 589826 = true ∧ stallCondition 8454147 1769474 = false ∧
    stallCondition 8454147 1179649 = false ∧ stallCondition 589825 589826 = false ∧
    stallCondition 8454147 9502720 = true ∧ stallCondition 8454147 21626880 = true ∧
    stallCondition 8847363 (-1) = true ∧ stallCondition 8585219 33751040 = true := by decide
/-- V20, third tick: the consumer is held behind a bubble and the pc rolled back. -/
theorem test_load_use_stall :
    after (step { snapshot 2
        { instruction := 9502720, pcPlus1 := 1, readRegA := 0, readRegB := 0, offset := 0 }
        idleMem idleWb idleEnd with ifid := { instruction := 720900, pcPlus1 := 2 } })
      (fun t => (t.pc, t.ifid.instruction, t.idex.instruction, t.exmem.instruction)) =
      some (2, 720900, noopWord, 9502720) := by decide
/-- V45: an illegal word retiring comes before an out-of-bounds SW, which stores nothing. -/
theorem test_illegal_word :
    after (step (snapshot 3 idleEx
        { instruction := 12713983, branchTarget := 0, aluResult := -1, readRegB := 0 }
        { instruction := -5, writeData := 0 } idleEnd))
      (fun t => (t.status, t.dmem)) = some (.faulted (.illegalOpcode (-5)), []) := by decide
/-- V46: an out-of-bounds SW comes before an out-of-bounds fetch. -/
theorem test_data_fault :
    after (step (snapshot 65536 idleEx
        { instruction := 12713983, branchTarget := 0, aluResult := 65536, readRegB := 1 } idleWb
        idleEnd)) (fun t => (t.status, t.dmem)) =
      some (.faulted (.dataAddressOutOfBounds 65536), []) := by decide
/-- The first tick after reset fetches the word placed for it (R181). -/
theorem test_first_fetch :
    after (step (State.reset.withFetchWord 32 0x008A0003)) (fun t => (t.ifid, t.pc, t.cycles)) =
      some ({ instruction := 0x008A0003#32, pcPlus1 := 1 }, 1, 1) := by decide

/-! ### Witnesses: concrete snapshots and operands that meet the hypotheses of the obligations -/

/-- The checks of `TickApplies`, all at once. -/
theorem applies_of {s : State}
    (h : s.status = .running ∧ op s.memwb.instruction ≠ some .halt ∧ op s.memwb.instruction ≠ none ∧
      ((op s.exmem.instruction = some .lw ∨ op s.exmem.instruction = some .sw) →
        inBounds s.exmem.aluResult = true) ∧ inBounds (fetchAddress s) = true) : TickApplies s :=
  ⟨h.1, h.2.1, h.2.2.1, h.2.2.2.1, h.2.2.2.2⟩

/-- The word `w` standing in all five latches and at the fetch address 65535, the last address, with
the last address in EX/MEM. -/
def standing (w : Word) : State :=
  { State.reset with
    pc := 65535
    imem := [(65535, w)]
    ifid := { instruction := w, pcPlus1 := 65535 }
    idex := { instruction := w, pcPlus1 := 65534, readRegA := 3, readRegB := 4, offset := 5 }
    exmem := { instruction := w, branchTarget := 7, aluResult := 65535, readRegB := 9 }
    memwb := { instruction := w, writeData := 8 }
    wbend := { instruction := w, writeData := 6 } }

/-- `standing` with a NOOP in MEM/WB. -/
def standingBefore (w : Word) : State := { standing w with memwb := idleWb }

theorem witness_reset_applies : TickApplies State.reset := applies_of (by decide)

theorem witness_StepRunsTheDecodedInstructions :
    TickApplies (standing 0x00130001) ∧ fetchedWord (standing 0x00130001) = some 0x00130001 ∧
    decode 0x00130001 = .ok (.add 2 3 0 1) := ⟨applies_of (by decide), by decide, by decide⟩

theorem witness_StepIsTheStopOfTheInstructionThatStops :
    ((standing haltWord).status = .running ∧
      decode (standing haltWord).memwb.instruction = .ok (.halt 0)) ∧
    (let s := snapshot 0 idleEx
        { instruction := 8519679, branchTarget := 0, aluResult := 65536, readRegB := 0 } idleWb idleEnd
     s.status = .running ∧ decode s.exmem.instruction = .ok (.lw 0 1 (-1)) ∧
      inBounds s.exmem.aluResult = false ∧ op s.memwb.instruction ≠ some .halt ∧
      op s.memwb.instruction ≠ none) := by decide

theorem witness_StepIsTheCompleteTickFunction : (standing 0x00130001).status = .running := by decide

theorem witness_StoppedMachineHoldsItsState :
    State.reset.halt.status ≠ .running ∧
    (State.reset.raise (.pcOutOfBounds 65536)).status ≠ .running := by decide

/-- One snapshot for each clause of R166: HALT, an illegal word, an SW at 65536, a fetch at 65536. -/
theorem witness_OldestInstructionsFaultIsReported :
    op (standing haltWord).memwb.instruction = some .halt ∧
    op (standing 0x02000000).memwb.instruction = none ∧
    (let s := snapshot 65536 idleEx
        { instruction := 12713983, branchTarget := 0, aluResult := 65536, readRegB := 1 } idleWb idleEnd
     s.status = .running ∧ op s.memwb.instruction ≠ some .halt ∧ op s.memwb.instruction ≠ none ∧
      op s.exmem.instruction = some .sw ∧ inBounds s.exmem.aluResult = false) ∧
    (let s := snapshot 65536 idleEx
        { instruction := 12713983, branchTarget := 0, aluResult := 65535, readRegB := 1 } idleWb idleEnd
     s.status = .running ∧ op s.memwb.instruction ≠ some .halt ∧ op s.memwb.instruction ≠ none ∧
      inBounds s.exmem.aluResult = true ∧ inBounds (fetchAddress s) = false) := by decide

theorem witness_HaltInMemWbEndsTheRun :
    (standing haltWord).status = .running ∧
    op (standing haltWord).memwb.instruction = some .halt := by decide

theorem witness_FaultFreezesTheSnapshot :
    (standing 0x02000000).status = .running ∧
    step (standing 0x02000000) = .next ((standing 0x02000000).raise (.illegalOpcode 0x02000000)) ∧
    ((standing 0x02000000).raise (.illegalOpcode 0x02000000)).status =
      .faulted (.illegalOpcode 0x02000000) := ⟨rfl, rfl, rfl⟩

/-- A step into each of the three faults (V45, V46, V46 second part). -/
theorem witness_EachFaultHasItsCause :
    (standing 0x02000000).status = .running ∧
    after (step (standing 0x02000000)) (·.status) = some (.faulted (.illegalOpcode 0x02000000)) ∧
    after (step (snapshot 0 idleEx
        { instruction := 12713983, branchTarget := 0, aluResult := -1, readRegB := 1 } idleWb idleEnd))
      (·.status) = some (.faulted (.dataAddressOutOfBounds (-1))) ∧
    after (step (snapshot 65536 idleEx idleMem idleWb idleEnd)) (·.status) =
      some (.faulted (.pcOutOfBounds 65536)) := by decide

theorem witness_OnlyAppliedTicksAreCounted :
    after (step (standing 0x00130001)) (·.status) = some .running ∧
    after (step (standing haltWord)) (·.status) = some .halted := by decide

theorem witness_OnlyTheNamedMutatorsWrite :
    (standing 0x00CAFFFC).dmem.wf = true ∧
    after (step (standing 0x00CAFFFC)) (·.dmem) = some [(65535, 9)] := by decide

theorem witness_NoRunChangesInstructionMemory :
    after (ticks 2 (standing 0x00CAFFFC)) (·.imem) = some [(65535, 0x00CAFFFC)] := by decide

/-- A fetch address just outside (65536) and one just inside (65535), a redirected fetch included. -/
theorem witness_FetchTakesTheWordAtTheFetchAddress :
    (let s := snapshot 65536 idleEx idleMem idleWb idleEnd
     s.status = .running ∧ op s.memwb.instruction ≠ some .halt ∧ op s.memwb.instruction ≠ none ∧
      65535 < (fetchAddress s).toInt) ∧
    (TickApplies (standing 0x00130001) ∧ stall (standing 0x00130001) = false ∧
      branchTaken (standing 0x00130001) = false) ∧
    (let s := snapshot 70000 idleEx
        { instruction := 0x01000000, branchTarget := 65535, aluResult := 0, readRegB := 0 } idleWb
        idleEnd
     TickApplies s ∧ stall s = false ∧ branchTaken s = false ∧ fetchAddress s = 65535) :=
  ⟨by decide, ⟨applies_of (by decide), by decide, by decide⟩,
    applies_of (by decide), by decide, by decide, by decide⟩

/-- The hypothesis `TickApplies s` of the statements about one stage, with each opcode in every latch:
for each clause about an opcode, a snapshot with that opcode in the latch the clause speaks of. -/
theorem witness_TickApplies_every_opcode :
    TickApplies (standing 0x00130001) ∧ TickApplies (standing 0x00530001) ∧
    TickApplies (standing 0x008A0003) ∧ TickApplies (standing 0x00CAFFFC) ∧
    TickApplies (standing 0x010A0005) ∧ TickApplies (standing 0x014A0000) ∧
    TickApplies (standing 0x01C00000) ∧ TickApplies (standingBefore haltWord) ∧
    TickApplies (standingBefore 0x02000000) :=
  ⟨applies_of (by decide), applies_of (by decide), applies_of (by decide), applies_of (by decide),
    applies_of (by decide), applies_of (by decide), applies_of (by decide), applies_of (by decide),
    applies_of (by decide)⟩

/-- ID promotes its occupant: neither a stall nor a taken branch. -/
theorem witness_DecodeStageReadsRegistersRaw :
    TickApplies (standing 0x00130001) ∧ stall (standing 0x00130001) = false ∧
    branchTaken (standing 0x00130001) = false ∧
    op (standing 0x00130001).ifid.instruction = some .add ∧
    op (standing 0x00CAFFFC).ifid.instruction = some .sw :=
  ⟨applies_of (by decide), by decide, by decide, by decide, by decide⟩

/-- A BEQ whose operands are equal, and one whose operands differ. -/
theorem witness_ExecuteLatchesTargetAndStoreData :
    TickApplies (standing 0x01090005) ∧ branchTaken (standing 0x010A0005) = false ∧
    (let s := snapshot 2
        { instruction := 0x01000005, pcPlus1 := 1, readRegA := 4, readRegB := 4, offset := 5 } idleMem
        idleWb idleEnd
     TickApplies s ∧ branchTaken s = true) :=
  ⟨applies_of (by decide), by decide, applies_of (by decide), by decide⟩

/-- A source in each of the three tiers, and in none (V36, V37). -/
theorem witness_ForwardingTakesTheNearestSource :
    forwards v36.exmem.instruction 1 = true ∧
    (forwards v37.exmem.instruction 1 = false ∧ forwards v37.memwb.instruction 1 = true) ∧
    (forwards v37.exmem.instruction 2 = false ∧ forwards v37.memwb.instruction 2 = false ∧
      forwards v37.wbend.instruction 2 = true) ∧
    (forwards v37.exmem.instruction 7 = false ∧ forwards v37.memwb.instruction 7 = false ∧
      forwards v37.wbend.instruction 7 = false) := by decide

theorem witness_StoreWritesExactlyOneWord :
    TickApplies (standing 0x00CAFFFC) ∧ (standing 0x00CAFFFC).dmem.wf = true ∧
    op (standing 0x00CAFFFC).exmem.instruction = some .sw :=
  ⟨applies_of (by decide), by decide, by decide⟩

/-- An LW just outside each bound, and an instruction that is not tested. -/
theorem witness_DataAddressOutOfBoundsFaults :
    (let s := snapshot 0 idleEx
        { instruction := 8519679, branchTarget := 0, aluResult := 65536, readRegB := 0 } idleWb idleEnd
     s.status = .running ∧ op s.memwb.instruction ≠ some .halt ∧ op s.memwb.instruction ≠ none ∧
      op s.exmem.instruction = some .lw ∧ 65535 < s.exmem.aluResult.toInt) ∧
    (let s := snapshot 0 idleEx
        { instruction := 12713983, branchTarget := 0, aluResult := -1, readRegB := 0 } idleWb idleEnd
     op s.exmem.instruction = some .sw ∧ s.exmem.aluResult.toInt < 0) ∧
    (let s := snapshot 0 idleEx
        { instruction := 0x00130001, branchTarget := 0, aluResult := -1, readRegB := 0 } idleWb idleEnd
     ¬(op s.exmem.instruction = some .lw ∨ op s.exmem.instruction = some .sw) ∧
      after (step s) (·.status) = some .running) := by decide

/-- Both comparisons of the hazard unit (R116): on `regA` (V32a), and on `regB` (V34c). -/
theorem witness_LoadUseStallsForOneBubble :
    (let s := { snapshot 2 { idleEx with instruction := 8454147 } idleMem idleWb idleEnd with
        ifid := { instruction := 589826, pcPlus1 := 2 } }
     TickApplies s ∧ op s.idex.instruction = some .lw ∧
      regB s.idex.instruction = regA s.ifid.instruction) ∧
    (let s := { snapshot 2 { idleEx with instruction := 8454147 } idleMem idleWb idleEnd with
        ifid := { instruction := 13697024, pcPlus1 := 2 } }
     TickApplies s ∧ op s.idex.instruction = some .lw ∧ op s.ifid.instruction ≠ some .noop ∧
      regB s.idex.instruction = regB s.ifid.instruction) :=
  ⟨⟨applies_of (by decide), by decide, by decide⟩,
    applies_of (by decide), by decide, by decide, by decide⟩

/-- An LW followed by a NOOP whose `regB` field matches: no stall (V33b). -/
theorem witness_NothingElseStalls :
    let s := { snapshot 2 { idleEx with instruction := 8454147 } idleMem idleWb idleEnd with
      ifid := { instruction := 29425664, pcPlus1 := 2 } }
    TickApplies s ∧ branchTaken s = false ∧
    ¬(op s.idex.instruction = some .lw ∧
      (regB s.idex.instruction = regA s.ifid.instruction ∨
        (op s.ifid.instruction ≠ some .noop ∧
          regB s.idex.instruction = regB s.ifid.instruction))) :=
  ⟨applies_of (by decide), by decide, by decide⟩

theorem witness_NoTwoConsecutiveStalls :
    let s := { snapshot 2 { idleEx with instruction := 8454147 } idleMem idleWb idleEnd with
      ifid := { instruction := 589826, pcPlus1 := 2 } }
    TickApplies s ∧ stall s = true := ⟨applies_of (by decide), by decide⟩

theorem witness_TakenBranchSquashesTheTwoYounger :
    let s := snapshot 2
      { instruction := 0x01000005, pcPlus1 := 1, readRegA := 4, readRegB := 4, offset := 5 } idleMem
      idleWb idleEnd
    TickApplies s ∧ op s.idex.instruction = some .beq ∧ effA s = effB s :=
  ⟨applies_of (by decide), by decide, by decide⟩

/-- The checks of `PipelineInvariant`, all at once. -/
theorem invariant_of {s : State}
    (h : s.imem.wf = true ∧ s.dmem.wf = true ∧ s.pc.toNat ≤ 65536 ∧ s.ifid.pcPlus1.toNat ≤ 65536 ∧
      s.idex.pcPlus1.toNat ≤ 65536 ∧
      (s.exmem.takenBranch = true →
        s.idex.instruction = noopWord ∧ s.ifid.instruction = noopWord) ∧
      (op s.exmem.instruction = some .lw → op s.idex.instruction ≠ some .noop →
        regA s.idex.instruction ≠ regB s.exmem.instruction ∧
        regB s.idex.instruction ≠ regB s.exmem.instruction) ∧
      (op s.idex.instruction ≠ some .noop →
        latchedOperand s (regA s.idex.instruction) s.idex.readRegA =
          readReg s.x (regA s.idex.instruction)) ∧
      (op s.idex.instruction ≠ some .noop →
        latchedOperand s (regB s.idex.instruction) s.idex.readRegB =
          readReg s.x (regB s.idex.instruction)) ∧
      (op s.idex.instruction ≠ some .noop → op s.idex.instruction ≠ some .add →
        op s.idex.instruction ≠ some .nand → s.idex.offset = immediateField s.idex.instruction)) :
    PipelineInvariant s :=
  ⟨h.1, h.2.1, h.2.2.1, h.2.2.2.1, h.2.2.2.2.1, h.2.2.2.2.2.1, h.2.2.2.2.2.2.1, h.2.2.2.2.2.2.2.1,
    h.2.2.2.2.2.2.2.2.1, h.2.2.2.2.2.2.2.2.2⟩

/-- The redirect tick of a taken BEQ whose target is the last address. -/
theorem witness_TakenBranchRedirectsTheFetch :
    let s := snapshot 3 idleEx
      { instruction := 0x01000000, branchTarget := 65535, aluResult := 0, readRegB := 0 } idleWb idleEnd
    PipelineInvariant s ∧ TickApplies s ∧ op s.exmem.instruction = some .beq ∧
    s.exmem.aluResult = 0#32 :=
  ⟨invariant_of (by decide), applies_of (by decide), by decide, by decide⟩

theorem witness_InvariantHoldsAtBoot : [haltWord].length ≤ 65536 := by decide

/-- A busy snapshot that meets the invariant: `w` in ID/EX with the operands and the immediate ID
latched, an ADD into register 3 in EX/MEM, an LW into register 1 in MEM/WB, an SW in IF/ID. -/
def busy (w : Word) : State :=
  { State.reset with
    x := #v[0, 10, 77, 3, 4, 5, 6, 7]
    pc := 5
    ifid := { instruction := 0x00CAFFFC, pcPlus1 := 5 }
    idex :=
      { instruction := w
        pcPlus1 := 4
        readRegA := readReg #v[0, 10, 77, 3, 4, 5, 6, 7] (regA w)
        readRegB := readReg #v[0, 10, 77, 3, 4, 5, 6, 7] (regB w)
        offset := immediateField w }
    exmem := { instruction := 0x00000003, branchTarget := 3, aluResult := 0, readRegB := 0 }
    memwb := { instruction := 0x00810004, writeData := 12 }
    dmem := [(13, 99)]
    imem := [(5, 0x01800000)]
    cycles := 5 }

theorem witness_StepKeepsThePipelineInvariant :
    PipelineInvariant (busy 0x00130001) ∧ after (step (busy 0x00130001)) (·.pc) = some 6 :=
  ⟨invariant_of (by decide), by decide⟩

theorem witness_ReachableSnapshotsAreSquashedAndInterlocked :
    [haltWord].length ≤ 65536 ∧
    after (ticks 2 (bootState [haltWord])) (fun t => t.idex.instruction) = some haltWord := by decide

theorem witness_ForwardedOperandsAreInProgramOrder :
    PipelineInvariant (busy 0x00130001) ∧ op (busy 0x00130001).idex.instruction ≠ some .noop :=
  ⟨invariant_of (by decide), by decide⟩

/-- Both ticks are applied. -/
theorem witness_ProgramOrderIsReached :
    TickApplies (busy 0x00130001) ∧ TickApplies (appliedTick (busy 0x00130001)) ∧
    step (busy 0x00130001) = .next (appliedTick (busy 0x00130001)) :=
  ⟨applies_of (by decide), applies_of (by decide), step_applies (applies_of (by decide))⟩

theorem witness_AddWritesTheSumInProgramOrder :
    PipelineInvariant (busy 0x00130001) ∧ TickApplies (busy 0x00130001) ∧
    (busy 0x00130001).idex.instruction = encode (.add 2 3 0 1) :=
  ⟨invariant_of (by decide), applies_of (by decide), by decide⟩

theorem witness_NandWritesTheNandInProgramOrder :
    PipelineInvariant (busy 0x00530001) ∧ TickApplies (busy 0x00530001) ∧
    (busy 0x00530001).idex.instruction = encode (.nand 2 3 0 1) :=
  ⟨invariant_of (by decide), applies_of (by decide), by decide⟩

/-- An LW in bounds (`lw 1 2 3`, address 15) and one out of bounds (`lw 0 1 -1`, address -1). -/
theorem witness_LoadWritesTheWordInProgramOrder :
    (PipelineInvariant (busy 0x008A0003) ∧ TickApplies (busy 0x008A0003) ∧
      (busy 0x008A0003).idex.instruction = encode (.lw 1 2 3) ∧
      inBounds (readReg (programOrderRegs (busy 0x008A0003)) 1 + (3#16).signExtend 32) = true) ∧
    (PipelineInvariant (busy 0x0081FFFF) ∧ TickApplies (busy 0x0081FFFF) ∧
      (busy 0x0081FFFF).idex.instruction = encode (.lw 0 1 (-1)) ∧
      inBounds (readReg (programOrderRegs (busy 0x0081FFFF)) 0 + (-1#16).signExtend 32) = false) :=
  ⟨⟨invariant_of (by decide), applies_of (by decide), by decide, by decide⟩,
    invariant_of (by decide), applies_of (by decide), by decide, by decide⟩

/-- An SW in bounds (`sw 1 2 -4`) and one out of bounds (`sw 0 1 -1`). -/
theorem witness_StoreWritesTheWordInProgramOrder :
    (PipelineInvariant (busy 0x00CAFFFC) ∧ TickApplies (busy 0x00CAFFFC) ∧
      (busy 0x00CAFFFC).idex.instruction = encode (.sw 1 2 (-4)) ∧
      inBounds (readReg (programOrderRegs (busy 0x00CAFFFC)) 1 + (-4#16).signExtend 32) = true) ∧
    (PipelineInvariant (busy 0x00C1FFFF) ∧ TickApplies (busy 0x00C1FFFF) ∧
      (busy 0x00C1FFFF).idex.instruction = encode (.sw 0 1 (-1)) ∧
      inBounds (readReg (programOrderRegs (busy 0x00C1FFFF)) 0 + (-1#16).signExtend 32) = false) :=
  ⟨⟨invariant_of (by decide), applies_of (by decide), by decide, by decide⟩,
    invariant_of (by decide), applies_of (by decide), by decide, by decide⟩

/-- A BEQ on different registers (not taken) and one on the same register (taken). -/
theorem witness_BranchIsTakenExactlyWhenEqual :
    (PipelineInvariant (busy 0x010A0005) ∧ TickApplies (busy 0x010A0005) ∧
      (busy 0x010A0005).idex.instruction = encode (.beq 1 2 5) ∧
      readReg (programOrderRegs (busy 0x010A0005)) 1 ≠
        readReg (programOrderRegs (busy 0x010A0005)) 2) ∧
    (PipelineInvariant (busy 0x01090005) ∧ TickApplies (busy 0x01090005) ∧
      (busy 0x01090005).idex.instruction = encode (.beq 1 1 5)) :=
  ⟨⟨invariant_of (by decide), applies_of (by decide), by decide, by decide⟩,
    invariant_of (by decide), applies_of (by decide), by decide⟩

theorem witness_InertInstructionsHaveNoEffect :
    (TickApplies (busy 0x014A0000) ∧ (busy 0x014A0000).idex.instruction = encode (.jalr 1 2 0)) ∧
    (TickApplies (busy haltWord) ∧ (busy haltWord).idex.instruction = encode (.halt 0)) ∧
    (TickApplies (busy noopWord) ∧ (busy noopWord).idex.instruction = encode (.noop 0)) :=
  ⟨⟨applies_of (by decide), by decide⟩, ⟨applies_of (by decide), by decide⟩,
    applies_of (by decide), by decide⟩

/-- `sw 0 2 13` in EX/MEM with `lw 1 2 3` behind it, at the same address and at another one. -/
def storeThenLoad (a : Word) : State :=
  { busy 0x008A0003 with
    exmem := { instruction := 0x00C2000D, branchTarget := 3, aluResult := a, readRegB := 77 } }

theorem witness_LoadReturnsTheStoreJustAhead :
    (let s := storeThenLoad 15
     s.dmem.wf = true ∧ TickApplies s ∧ TickApplies (appliedTick s) ∧
      op s.exmem.instruction = some .sw ∧ op s.idex.instruction = some .lw ∧
      (appliedTick s).exmem.aluResult = 15 ∧ step s = .next (appliedTick s) ∧
      step (appliedTick s) = .next (appliedTick (appliedTick s))) ∧
    (let s := storeThenLoad 65535
     s.dmem.wf = true ∧ TickApplies s ∧ TickApplies (appliedTick s) ∧
      (appliedTick s).exmem.aluResult ≠ s.exmem.aluResult) :=
  ⟨⟨by decide, applies_of (by decide), applies_of (by decide), by decide, by decide, by decide,
      step_applies (applies_of (by decide)), step_applies (applies_of (by decide))⟩,
    by decide, applies_of (by decide), applies_of (by decide), by decide⟩

/-- The instruction stands in every latch and is being fetched: every clause of its part applies. -/
theorem witness_AddPartCompletes :
    (standing 0x00130001).status = .running ∧
    (standing 0x00130001).memwb.instruction = encode (.add 2 3 0 1) ∧
    fetchedWord (standing 0x00130001) = some (encode (.add 2 3 0 1)) := by decide

theorem witness_NandPartCompletes :
    (standing 0x00530001).status = .running ∧
    (standing 0x00530001).memwb.instruction = encode (.nand 2 3 0 1) := by decide

/-- An LW at the last address, and one that stands in EX/MEM nowhere. -/
theorem witness_LwPartCompletes :
    (standing 0x008A0003).status = .running ∧
    (standing 0x008A0003).exmem.instruction = encode (.lw 1 2 3) ∧
    inBounds (standing 0x008A0003).exmem.aluResult = true := by decide

theorem witness_SwPartCompletes :
    (standing 0x00CAFFFC).status = .running ∧ (standing 0x00CAFFFC).dmem.wf = true ∧
    (standing 0x00CAFFFC).exmem.instruction = encode (.sw 1 2 (-4)) ∧
    inBounds (standing 0x00CAFFFC).exmem.aluResult = true := by decide

/-- A BEQ in ID/EX with different operands, and one with equal operands. -/
theorem witness_BeqPartCompletes :
    (standing 0x010A0005).status = .running ∧
    (standing 0x010A0005).idex.instruction = encode (.beq 1 2 5) ∧
    forward (standing 0x010A0005) 1 3 ≠ forward (standing 0x010A0005) 2 4 ∧
    (busy 0x01090005).idex.instruction = encode (.beq 1 1 5) ∧
    forward (busy 0x01090005) 1 10 = forward (busy 0x01090005) 1 10 := by decide

theorem witness_JalrPartCompletes :
    (standing 0x014A0000).status = .running ∧
    (standing 0x014A0000).idex.instruction = encode (.jalr 1 2 0) := by decide

theorem witness_NoopPartCompletes :
    (standing 0x01FFFFFF).status = .running ∧
    (standing 0x01FFFFFF).idex.instruction = encode (.noop 0x3FFFFF) := by decide

/-- A HALT in MEM/WB, and one in every latch but MEM/WB. -/
theorem witness_HaltPartCompletes :
    (standing haltWord).memwb.instruction = encode (.halt 0) ∧
    (standingBefore haltWord).memwb.instruction ≠ encode (.halt 0) ∧
    (standingBefore haltWord).idex.instruction = encode (.halt 0) := by decide

/-- An LW just above the last address and an SW just below address 0. -/
theorem witness_LoadAndStoreTrapOutOfBounds :
    (let s := snapshot 0 idleEx
        { instruction := 0x008A0003, branchTarget := 0, aluResult := 65536, readRegB := 0 } idleWb
        idleEnd
     s.status = .running ∧ s.exmem.instruction = encode (.lw 1 2 3) ∧
      65535 < s.exmem.aluResult.toInt) ∧
    (let s := snapshot 0 idleEx
        { instruction := 0x00CAFFFC, branchTarget := 0, aluResult := -1, readRegB := 0 } idleWb
        idleEnd
     s.status = .running ∧ s.exmem.instruction = encode (.sw 1 2 (-4)) ∧
      s.exmem.aluResult.toInt < 0) := by decide

theorem witness_IllegalWordFaultsOnlyWhenItWouldRetire :
    (0x02000000#32).extractLsb' 25 7 ≠ 0#7 ∧
    (standing 0x02000000).memwb.instruction = 0x02000000 ∧
    (standingBefore 0x02000000).memwb.instruction ≠ 0x02000000 ∧
    (standingBefore 0x02000000).exmem.instruction = 0x02000000 := by decide

theorem witness_ResetSnapshotIsTheTableOfResetValues :
    [5#32, 0#32, 7#32].length ≤ 65536 ∧ (bootState [5, 0, 7]).imem = [(0, 5), (2, 7)] := by decide

/-- An image that is accepted, and one that is not. -/
theorem witness_LoaderAcceptsExactlyWellFormedImages :
    loadImage [some (-1), some 2147483647] = .ok [-1, 2147483647] ∧
    numMemory [-1, 2147483647] = 2 ∧
    boot [some (-1), some 2147483647] = .ok (bootState [-1, 2147483647]) ∧
    loadImage [some 1, none] = .error (.malformedLine 1) := ⟨rfl, rfl, rfl, rfl⟩

theorem witness_OnlyAHaltedRunIsReported :
    State.reset.status ≠ .halted ∧ State.reset.halt.status = .halted := by decide

/-- The snapshot after `n` applied ticks. -/
def applied : Nat → State → State
  | 0, s => s
  | n + 1, s => applied n (appliedTick s)

/-- A stopped run stays where it is. -/
theorem ticks_of_stopped {s : State} (h : s.status ≠ .running) : ∀ k, ticks k s = .next s
  | 0 => rfl
  | k + 1 => by rw [ticks_succ (step_stopped h)]; exact ticks_of_stopped h k

/-- Where `n` ticks are applied and the next one stops the run without a fetch fault, no tick of the
run has a fetch fault. -/
theorem no_fetch_fault {stopped : State} :
    ∀ (n : Nat) (s : State), (∀ j, j < n → TickApplies (applied j s)) →
      (applied n s).status = .running → step (applied n s) = .next stopped →
      stopped.status ≠ .running → (∀ a, stopped.status ≠ .faulted (.pcOutOfBounds a)) →
      ∀ k t a, ticks k s = .next t → t.status ≠ .faulted (.pcOutOfBounds a)
  | 0, s, _, hs, _, _, _, 0, t, a, hk => by
    injection hk with hk; subst hk; rw [show s.status = .running from hs]; exact nofun
  | 0, s, _, _, h, hr, hf, k + 1, t, a, hk => by
    rw [ticks_succ (show step s = .next stopped from h), ticks_of_stopped hr] at hk
    injection hk with hk; subst hk; exact hf a
  | n + 1, s, ha, _, _, _, _, 0, t, a, hk => by
    have hs : TickApplies s := ha 0 (by omega)
    injection hk with hk; subst hk; rw [hs.running]; exact nofun
  | n + 1, s, ha, hs, h, hr, hf, k + 1, t, a, hk => by
    have h0 : TickApplies s := ha 0 (by omega)
    rw [ticks_succ (step_applies h0)] at hk
    exact no_fetch_fault n (appliedTick s) (fun j hj => ha (j + 1) (by omega)) hs h hr hf k t a hk

/-- The image `halt`: the sequential run halts at once, and the pipeline, which halts in its fifth
tick, fetches nothing out of bounds. -/
theorem witness_PipelineHaltsWithTheReferenceState :
    [haltWord].length ≤ 65536 ∧
    seqRun (imageMemory [haltWord]) 1 (seqInit [haltWord]) = .halted (seqInit [haltWord]) ∧
    ∀ k t a, ticks k (bootState [haltWord]) = .next t → t.status ≠ .faulted (.pcOutOfBounds a) :=
  ⟨by decide, by decide,
    no_fetch_fault 4 _ (fun j hj => applies_of (by revert j; decide)) (by decide)
      (step_halt (by decide) (by decide)) (by decide) nofun⟩

/-- Both causes: the image `.word -1`, whose pipeline run faults in its fifth tick, and the image
`lw 0 1 -1` (V40), whose run faults in its fourth; neither fetches out of bounds. -/
theorem witness_PipelineFaultsWithTheReferenceCause :
    ([(-1 : Word)].length ≤ 65536 ∧
      seqRun (imageMemory [-1]) 1 (seqInit [-1]) = .faulted (.illegalOpcode (-1)) ∧
      (∀ a, Fault.illegalOpcode (-1) ≠ .pcOutOfBounds a) ∧
      ∀ k t a, ticks k (bootState [-1]) = .next t → t.status ≠ .faulted (.pcOutOfBounds a)) ∧
    ([(0x0081FFFF : Word)].length ≤ 65536 ∧
      seqRun (imageMemory [0x0081FFFF]) 1 (seqInit [0x0081FFFF]) =
        .faulted (.dataAddressOutOfBounds (-1)) ∧
      (∀ a, Fault.dataAddressOutOfBounds (-1) ≠ .pcOutOfBounds a) ∧
      ∀ k t a, ticks k (bootState [0x0081FFFF]) = .next t →
        t.status ≠ .faulted (.pcOutOfBounds a)) :=
  ⟨⟨by decide, by decide, nofun,
      no_fetch_fault 4 _ (fun j hj => applies_of (by revert j; decide)) (by decide)
        (step_illegal (by decide) (by decide)) (by decide) nofun⟩,
    by decide, by decide, nofun,
    no_fetch_fault 3 _ (fun j hj => applies_of (by revert j; decide)) (by decide)
      (step_dataFault (by decide) (by decide) (by decide) (.inl (by decide)) (by decide)) (by decide)
      nofun⟩

end Sys2Proof.Tests
end

/-! SUPPORT. Laws of a step and of a boot as their results show them: which snapshots a step can
answer, which words write a register or data memory, and what a booted memory holds. -/

namespace Sys2Proof.Machine

/-! ### What a step answers -/

/-- Everything a step can answer: the same snapshot from a stopped machine; from a running one the
snapshot with only its status changed (R146, R167), or the applied tick. -/
theorem step_eq_next {s t : State} (h : step s = .next t) :
    (s.status ≠ .running ∧ t = s) ∨
    (s.status = .running ∧ (t = s.halt ∨ ∃ f, t = s.raise f)) ∨
    (TickApplies s ∧ t = appliedTick s) := by
  obtain ⟨hs, e⟩ | ⟨hs, -, e⟩ | ⟨hs, -, e⟩ | ⟨hs, -, -, -, -, e⟩ | ⟨hs, -, -, -, -, e⟩ | ⟨ha, e⟩ :=
    step_cases s
  all_goals
    rw [e] at h
    cases h
  · exact .inl ⟨hs, rfl⟩
  · exact .inr (.inl ⟨hs, .inl rfl⟩)
  · exact .inr (.inl ⟨hs, .inr ⟨_, rfl⟩⟩)
  · exact .inr (.inl ⟨hs, .inr ⟨_, rfl⟩⟩)
  · exact .inr (.inl ⟨hs, .inr ⟨_, rfl⟩⟩)
  · exact .inr (.inr ⟨ha, rfl⟩)

/-- A run from a snapshot that a step maps to itself stays there. -/
theorem ticks_of_step_self {s : State} (h : step s = .next s) (k : Nat) : ticks k s = .next s := by
  induction k with
  | zero => rfl
  | succ k ih => rw [ticks_succ h, ih]

/-- A step writes only registers and data memory of the architectural state, and only as the two
occupants of MEM/WB and EX/MEM say (R14, R29). -/
theorem step_architectural {s t : State} (h : step s = .next t) :
    t.imem = s.imem ∧
    (t.x = s.x ∨ t.x = nextRegisters s (rowOf s.memwb.instruction).retire) ∧
    (t.dmem = s.dmem ∨ t.dmem = nextDmem s (rowOf s.exmem.instruction).memory) := by
  obtain ⟨-, rfl⟩ | ⟨-, rfl | ⟨f, rfl⟩⟩ | ⟨-, rfl⟩ := step_eq_next h
  · exact ⟨rfl, .inl rfl, .inl rfl⟩
  · exact ⟨rfl, .inl rfl, .inl rfl⟩
  · exact ⟨rfl, .inl rfl, .inl rfl⟩
  · exact ⟨rfl, .inr rfl, .inr rfl⟩

/-! ### Which words write -/

/-- The words that write a register when they retire (R105): LW its `regB`, ADD and NAND their
`destField`. -/
theorem rowOf_retire_eq_write_iff (w : Word) (r : Reg) :
    (rowOf w).retire = .write r ↔
      (op w = some .lw ∧ regB w = r) ∨
      ((op w = some .add ∨ op w = some .nand) ∧ destField w = r) := by
  cases ho : op w with
  | none => simp [rowOf, ho]
  | some m => cases m <;> simp [rowOf, ho]

/-- The words that write data memory (R103). -/
theorem rowOf_memory_eq_store_iff (w : Word) : (rowOf w).memory = .store ↔ op w = some .sw := by
  cases ho : op w with
  | none => simp [rowOf, ho]
  | some m => cases m <;> simp [rowOf, ho]

/-- Writeback changes at most the destination register. -/
theorem readReg_nextRegisters (s : State) (a : Retire) (r : Reg) :
    readReg (nextRegisters s a) r = readReg s.x r ∨ a = .write r := by
  cases a with
  | write dest =>
    by_cases hr : r = dest
    · exact .inr (by rw [hr])
    · exact .inl (readReg_writeReg_of_ne s.x s.memwb.writeData hr)
  | nothing | halt | illegal => exact .inl rfl

/-- The memory stage changes at most the word a store addresses. -/
theorem read_nextDmem {s : State} (hwf : s.dmem.wf = true) (access : MemAccess) (a : Nat) :
    (nextDmem s access).read a = s.dmem.read a ∨
      (access = .store ∧ address s.exmem.aluResult = a) := by
  unfold nextDmem
  split
  · rename_i hstore
    rw [Memory.read_write hwf]
    split
    · rename_i ha
      exact .inr ⟨hstore, ha⟩
    · exact .inl rfl
  · exact .inl rfl

/-! ### The booted memories and registers -/

/-- An image loaded from address `a` up holds its word `i` at `a + i`, and 0 beyond its end. -/
theorem imageMemoryFrom_read (image : List Word) (a i : Nat) :
    (imageMemoryFrom a image).read (a + i) = image.getD i 0#32 := by
  induction image generalizing a i with
  | nil => rfl
  | cons w rest ih =>
    cases i with
    | zero =>
      have beyond : (imageMemoryFrom (a + 1) rest).read a = Memory.unlisted :=
        Memory.read_of_lt fun c hc => (imageMemoryFrom_mem hc).1
      by_cases hw : w = Memory.unlisted <;> simp [imageMemoryFrom, hw, beyond, Memory.read]
    | succ i =>
      have shifted := ih (a + 1) i
      rw [show a + 1 + i = a + (i + 1) by omega] at shifted
      by_cases hw : w = Memory.unlisted <;> simp [imageMemoryFrom, hw, shifted, Memory.read]

/-- A loaded memory is the image followed by zeros (R28). -/
theorem imageMemory_read (image : List Word) (a : Nat) :
    (imageMemory image).read a = image.getD a 0#32 := by
  simpa [imageMemory] using imageMemoryFrom_read image 0 a

/-- A register file of zeros reads 0 everywhere. -/
@[simp] theorem readReg_replicate_zero (r : Reg) : readReg (Vector.replicate 8 0#32) r = 0#32 := by
  simp [readReg]

@[simp] theorem op_noopWord : op noopWord = some .noop := by decide

/-- The reset snapshot of an image that fits meets the invariant: both memories are canonical, the
addresses are 0, and NOOPs in the latches leave the other clauses nothing to say. -/
theorem bootState_invariant {image : List Word} (h : image.length ≤ 65536) :
    PipelineInvariant (bootState image) where
  imemWf := imageMemory_wf h
  dmemWf := imageMemory_wf h
  pcRange := Nat.zero_le _
  ifidRange := Nat.zero_le _
  idexRange := Nat.zero_le _
  squashed _ := ⟨rfl, rfl⟩
  loadUse _ hnoop := absurd op_noopWord hnoop
  operandA hnoop := absurd op_noopWord hnoop
  operandB hnoop := absurd op_noopWord hnoop
  immediate hnoop := absurd op_noopWord hnoop

end Sys2Proof.Machine

/-! The statements about the state: reset, holding, counting, and what a step may write. -/

namespace Sys2Proof.Machine

/-- Settles O33: `State.reset` is the boot snapshot of the empty image. -/
theorem invariantHoldsAtReset : Obligations.InvariantHoldsAtReset :=
  bootState_invariant (image := []) (Nat.zero_le _)

/-- Settles O10: a step maps a stopped snapshot to itself, hence so does a run. -/
theorem stoppedMachineHoldsItsState : Obligations.StoppedMachineHoldsItsState :=
  fun _ k hs => ticks_of_step_self (step_stopped hs) k

/-- Settles O15, by the answers a step has: a stop changes only the status, and the applied tick, the
only one that runs on, counts itself. -/
theorem onlyAppliedTicksAreCounted : Obligations.OnlyAppliedTicksAreCounted := by
  intro s t hs h
  obtain ⟨hstop, -⟩ | ⟨-, rfl | ⟨f, rfl⟩⟩ | ⟨-, rfl⟩ := step_eq_next h
  · exact absurd hs hstop
  · exact ⟨nofun, fun _ => rfl⟩
  · exact ⟨nofun, fun _ => rfl⟩
  · exact ⟨fun _ => rfl, fun hrun => absurd rfl hrun⟩

/-- Settles O16: what the stages WB and MEM may write, for the words that write. -/
theorem onlyTheNamedMutatorsWrite : Obligations.OnlyTheNamedMutatorsWrite := by
  intro s t hwf h
  obtain ⟨himem, hx, hdmem⟩ := step_architectural h
  refine ⟨himem, fun r => ?_, fun a => ?_⟩
  · obtain hx | hx := hx <;> rw [hx]
    · exact .inl rfl
    · rw [← rowOf_retire_eq_write_iff]
      exact readReg_nextRegisters s _ r
  · obtain hdmem | hdmem := hdmem <;> rw [hdmem]
    · exact .inl rfl
    · rw [← rowOf_memory_eq_store_iff]
      exact read_nextDmem hwf _ a

/-- Settles O56: the memories by `imageMemory_read`, every other element as `State.reset` writes it. -/
theorem resetSnapshotIsTheTableOfResetValues :
    Obligations.ResetSnapshotIsTheTableOfResetValues := by
  intro image _
  exact ⟨readReg_replicate_zero, rfl, fun a => ⟨imageMemory_read image a, imageMemory_read image a⟩,
    rfl, rfl, rfl, rfl, rfl, rfl, rfl⟩

end Sys2Proof.Machine

/-! SUPPORT. Laws of runs, and of the memory stage in an applied tick: the LW and the SW in EX/MEM. -/

namespace Sys2Proof.Machine

/-! ### Runs -/

/-- No step answers a fault or a refusal of the model (R111). -/
theorem exists_step_eq_next (s : State) : ∃ t, step s = .next t := by
  obtain ⟨-, e⟩ | ⟨-, -, e⟩ | ⟨-, -, e⟩ | ⟨-, -, -, -, -, e⟩ | ⟨-, -, -, -, -, e⟩ | ⟨-, e⟩ :=
    step_cases s
  all_goals exact ⟨_, e⟩

/-- A run of `k + 1` steps is one step and a run of `k`. -/
theorem ticks_succ_eq_next_iff {k : Nat} {s t : State} :
    ticks (k + 1) s = .next t ↔ ∃ u, step s = .next u ∧ ticks k u = .next t := by
  obtain ⟨u, hu⟩ := exists_step_eq_next s
  simp [ticks_succ hu, hu]

/-- What every step keeps, every run keeps. -/
theorem ticks_induction {P : State → Prop} (keeps : ∀ s t, step s = .next t → P s → P t) {k : Nat}
    {s t : State} (run : ticks k s = .next t) (hs : P s) : P t := by
  induction k generalizing s with
  | zero =>
    obtain rfl : s = t := by simpa using run
    exact hs
  | succ k ih =>
    obtain ⟨u, hu, rest⟩ := ticks_succ_eq_next_iff.1 run
    exact ih rest (keeps s u hu hs)

/-! ### The memory stage in an applied tick -/

/-- The step of an applied tick answers `appliedTick`. -/
theorem TickApplies.eq_appliedTick {s t : State} (h : TickApplies s) (hst : step s = .next t) :
    t = appliedTick s := by
  simpa [step_applies h, eq_comm] using hst

theorem address_inj {a b : Word} : address a = address b ↔ a = b := BitVec.toNat_inj

/-- An LW in EX/MEM moves on with the word of the old data memory at its address (R102, R34). -/
theorem appliedTick_memwb_of_lw {s : State} (h : op s.exmem.instruction = some .lw) :
    (appliedTick s).memwb =
      { instruction := s.exmem.instruction
        writeData := s.dmem.read (address s.exmem.aluResult) } := by
  simp [appliedTick, nextMemWb, rowOf, h]

/-- An SW in EX/MEM replaces the word at its address and no other (R103). -/
theorem read_appliedTick_dmem_of_sw {s : State} (hwf : s.dmem.wf = true)
    (h : op s.exmem.instruction = some .sw) (a : Nat) :
    (appliedTick s).dmem.read a =
      if address s.exmem.aluResult = a then s.exmem.readRegB else s.dmem.read a := by
  have stored : (appliedTick s).dmem =
      s.dmem.write (address s.exmem.aluResult) s.exmem.readRegB :=
    if_pos ((rowOf_memory_eq_store_iff _).2 h)
  rw [stored, Memory.read_write hwf]

end Sys2Proof.Machine

/-! The statements about the memories: what no run writes, and a load behind a store. -/

namespace Sys2Proof.Machine

/-- Settles O17: no step writes instruction memory, hence no run does. -/
theorem noRunChangesInstructionMemory : Obligations.NoRunChangesInstructionMemory := fun _ s _ run =>
  ticks_induction (P := fun n => n.imem = s.imem)
    (fun _ _ hstep kept => (step_architectural hstep).1.trans kept) run rfl

/-- Settles O45: the first tick makes the store and moves the LW to EX/MEM, so that the second reads
the memory the store has written. -/
theorem loadReturnsTheStoreJustAhead : Obligations.LoadReturnsTheStoreJustAhead := by
  intro s t u hwf hs ht hsw hlw hst htu
  obtain rfl := hs.eq_appliedTick hst
  obtain rfl := ht.eq_appliedTick htu
  have hlw' : op (appliedTick s).exmem.instruction = some .lw := hlw
  rw [appliedTick_memwb_of_lw hlw']
  refine ⟨rfl, ?_⟩
  rw [read_appliedTick_dmem_of_sw hwf hsw]
  simp only [address_inj, eq_comm (a := s.exmem.aluResult)]
  rfl

end Sys2Proof.Machine

/-! SUPPORT. Laws of the encoding: the decoder inverts the encoder, and the opcode and the immediate
as integers. -/

namespace Sys2Proof

/-! ### The decoder on an encoded instruction -/

/-- No two instructions share a word: every field, the ignored bits (R61) among them, is read back. -/
theorem decode_encode (i : Instr) : decode (encode i) = .ok i := by
  rw [decode, op_encode]
  cases i with
  | add | nand =>
    simp only [Instr.mnemonic, encode, regA_layout, regB_layout, ignored_layout, destField_layout]
  | lw | sw | beq | jalr =>
    simp only [Instr.mnemonic, encode, regA_layout, regB_layout, low_layout]
  | halt | noop => simp only [Instr.mnemonic, encode, fields_layout]

theorem decode_eq_illegalOpcode_iff (w : Word) :
    decode w = .error (.illegalOpcode w) ↔ op w = none := by
  rw [← decode_error_iff]
  constructor
  · exact fun h => ⟨_, h⟩
  · rintro ⟨e, he⟩
    rw [he, decode_error_name he]

theorem exists_decode_eq_ok_iff (w : Word) : (∃ i, decode w = .ok i) ↔ op w ≠ none := by
  rw [ne_eq, ← decode_error_iff]
  cases decode w <;> simp

/-! ### The opcode and the immediate as integers -/

/-- An arithmetic right shift is a floor division (R51). -/
theorem opcode_eq_toInt_div (w : Word) : opcode w = w.toInt / 2 ^ 22 := by
  rw [opcode, BitVec.toInt_sshiftRight, Int.shiftRight_eq_div_pow, Nat.cast_pow, Nat.cast_ofNat]

/-- A word is legal exactly when it lies below the first word with a bit of 31:25 set. -/
theorem bits_31_25_eq_zero_iff (w : Word) : w.extractLsb' 25 7 = 0#7 ↔ w.toNat < 2 ^ 25 := by
  have hw := w.isLt
  rw [← BitVec.toNat_inj, extract_toNat, BitVec.toNat_zero]
  omega

theorem opcode_bounds (w : Word) : -512 ≤ opcode w ∧ opcode w ≤ 511 := by
  have lower := w.le_toInt
  have upper := w.toInt_lt
  rw [opcode_eq_toInt_div]
  omega

/-- Bits 31:25 include the sign, so a word with one of them set is negative or at least `2 ^ 25`. -/
theorem opcode_mem_range_iff (w : Word) :
    (0 ≤ opcode w ∧ opcode w ≤ 7) ↔ w.extractLsb' 25 7 = 0#7 := by
  have hw := w.isLt
  rw [opcode_eq_toInt_div, bits_31_25_eq_zero_iff, BitVec.toInt_eq_toNat_cond]
  split <;> omega

theorem opcode_eq_bits_24_22 {w : Word} (h : w.extractLsb' 25 7 = 0#7) :
    opcode w = ((w.extractLsb' 22 3).toNat : Int) := by
  rw [bits_31_25_eq_zero_iff] at h
  rw [opcode_eq_iff, extract_toNat]
  omega

/-- Sign extension keeps the signed value: the immediate is not scaled or shifted (R54). -/
theorem immediateField_toInt (w : Word) :
    (immediateField w).toInt = (w.extractLsb' 0 16).toInt :=
  BitVec.toInt_signExtend_of_le (by decide)

end Sys2Proof

/-! The statements about the encoding: the decoder and the encoder, the opcode and the immediate. -/

namespace Sys2Proof

/-- Settles O1: the decoder reads back the mnemonic and each field of the layout. -/
theorem decodeOfEncodeGivesTheInstruction : Obligations.DecodeOfEncodeGivesTheInstruction :=
  decode_encode

/-- Settles O2: a decoded word is its instruction's encoding, and by O1 no other instruction's. -/
theorem everyWordIsOneInstructionOrIllegal : Obligations.EveryWordIsOneInstructionOrIllegal := by
  intro w
  refine ⟨(decode_eq_illegalOpcode_iff w).trans (op_eq_none_iff w), fun legal => ?_⟩
  have named : op w ≠ none := fun h => (op_eq_none_iff w).1 h legal
  obtain ⟨i, hi⟩ := (exists_decode_eq_ok_iff w).2 named
  refine ⟨i, hi, encode_of_decode hi, ?_⟩
  rintro k rfl
  exact Except.ok.inj ((decode_encode k).symm.trans hi)

/-- Settles O3: the opcode as a floor division of the signed word, and its range. -/
theorem opcodeIsArithmeticShiftOfTheWord : Obligations.OpcodeIsArithmeticShiftOfTheWord := fun w =>
  have ⟨lower, upper⟩ := opcode_bounds w
  ⟨opcode_eq_toInt_div w, lower, upper, opcode_mem_range_iff w, opcode_eq_bits_24_22,
    (op_eq_none_iff w).symm⟩

/-- Settles O4: the immediate is the low half as a signed integer, from which the range and the three
examples follow. -/
theorem immediateIsTheSignExtendedLowHalf : Obligations.ImmediateIsTheSignExtendedLowHalf := by
  intro w
  rw [immediateField_toInt]
  generalize w.extractLsb' 0 16 = low
  refine ⟨?signed, low.le_toInt, Int.le_of_lt_add_one low.toInt_lt, ?minusOne, ?least, ?greatest⟩
  case signed =>
    rw [BitVec.toInt_eq_toNat_cond]
    split <;> split <;> omega
  case minusOne | least | greatest =>
    rintro rfl
    decide

end Sys2Proof

/-! SUPPORT. Laws of program order: what an applied tick makes of it, and that the forwarding unit
delivers it. -/

namespace Sys2Proof.Machine

/-! ### Program order across an applied tick -/

/-- A committed result is read back from the destination, as the forwarding unit matches it. -/
theorem readReg_committed (x : Registers) (w v : Word) (r : Reg) :
    readReg (committed x w v) r = if forwards w r then v else readReg x r := by
  unfold committed forwards
  cases isSource w with
  | false => simp
  | true =>
    by_cases hr : destReg w = r
    · subst hr
      simp
    · simp [hr, readReg_writeReg_of_ne x v (Ne.symm hr)]

/-- Writeback commits the MEM/WB occupant's result (R105). -/
theorem nextRegisters_rowOf (s : State) :
    nextRegisters s (rowOf s.memwb.instruction).retire =
      committed s.x s.memwb.instruction s.memwb.writeData := by
  cases ho : op s.memwb.instruction with
  | none => simp [nextRegisters, rowOf, committed, isSource, ho]
  | some m => cases m <;> simp [nextRegisters, rowOf, committed, isSource, destReg, ho]

/-- The words that read data memory (R102). -/
theorem rowOf_memory_eq_load_iff (w : Word) : (rowOf w).memory = .load ↔ op w = some .lw := by
  cases ho : op w with
  | none => simp [rowOf, ho]
  | some m => cases m <;> simp [rowOf, ho]

theorem appliedTick_memwb (s : State) :
    (appliedTick s).memwb =
      { instruction := s.exmem.instruction, writeData := memoryResult s } := by
  simp only [appliedTick, nextMemWb, memoryResult, rowOf_memory_eq_load_iff]

theorem appliedTick_dmem (s : State) : (appliedTick s).dmem = programOrderMem s := by
  simp only [appliedTick, nextDmem, programOrderMem, rowOf_memory_eq_store_iff]

/-- The tick that executes an instruction commits its result to the registers in program order. -/
theorem programOrderRegs_appliedTick (s : State) :
    programOrderRegs (appliedTick s) =
      committed (programOrderRegs s) s.idex.instruction (memoryResult (appliedTick s)) := by
  have retired : (appliedTick s).x = committed s.x s.memwb.instruction s.memwb.writeData :=
    nextRegisters_rowOf s
  rw [programOrderRegs, retired, appliedTick_memwb]
  rfl

/-- The tick that executes an instruction other than an SW keeps data memory in program order. -/
theorem programOrderMem_appliedTick {s : State} (h : op s.idex.instruction ≠ some .sw) :
    programOrderMem (appliedTick s) = programOrderMem s := by
  have moved : (appliedTick s).exmem.instruction = s.idex.instruction := rfl
  rw [programOrderMem, moved, if_neg h, appliedTick_dmem]

/-! ### Forwarding -/

/-- A forwarded operand is the register in program order (R132), where no LW is just ahead of its use
(R121) and the operand ID latched is current (R131). -/
theorem forward_eq_programOrder {s : State} {r : Reg} {raw : Word}
    (interlocked : op s.exmem.instruction = some .lw → r ≠ regB s.exmem.instruction)
    (current : latchedOperand s r raw = readReg s.x r) :
    forward s r raw = readReg (programOrderRegs s) r := by
  have nearest : forwards s.exmem.instruction r = true → memoryResult s = s.exmem.aluResult := by
    intro hf
    refine if_neg fun hlw => interlocked hlw ?_
    simpa [forwards, destReg, hlw, eq_comm] using And.right (Bool.and_eq_true_iff.1 hf)
  rw [programOrderRegs, readReg_committed, readReg_committed, ← current]
  unfold forward latchedOperand
  split
  · rename_i hf
    exact (nearest hf).symm
  · rfl

/-- The effective `regA` operand is the register in program order. -/
theorem PipelineInvariant.effA_eq {s : State} (h : PipelineInvariant s)
    (hn : op s.idex.instruction ≠ some .noop) :
    effA s = readReg (programOrderRegs s) (regA s.idex.instruction) :=
  forward_eq_programOrder (fun hlw => (h.loadUse hlw hn).1) (h.operandA hn)

/-- The effective `regB` operand is the register in program order. -/
theorem PipelineInvariant.effB_eq {s : State} (h : PipelineInvariant s)
    (hn : op s.idex.instruction ≠ some .noop) :
    effB s = readReg (programOrderRegs s) (regB s.idex.instruction) :=
  forward_eq_programOrder (fun hlw => (h.loadUse hlw hn).2) (h.operandB hn)

end Sys2Proof.Machine

/-! SUPPORT. Laws of one instruction's part in a tick that its own tests let go on. -/

namespace Sys2Proof.Machine

/-! ### The stages an instruction stands in, and those it does not -/

section stages
variable {a : StageActions} {s : State} (n : State)

theorem fetchStage_of_eq (h : fetchedWord s = some a.word) :
    fetchStage a s n = { n with ifid := nextIfId s a.word, pc := nextPc s } := if_pos h

theorem fetchStage_of_ne (h : fetchedWord s ≠ some a.word) : fetchStage a s n = n := if_neg h

theorem decodeStage_of_eq (h : s.ifid.instruction = a.word) :
    decodeStage a s n = { n with idex := nextIdEx s a.offset } := if_pos h

theorem decodeStage_of_ne (h : s.ifid.instruction ≠ a.word) : decodeStage a s n = n := if_neg h

theorem executeStage_of_eq (h : s.idex.instruction = a.word) :
    executeStage a s n =
      { n with exmem := nextExMem s (a.alu (effA s) (effB s) s.idex.offset) a.branches } := if_pos h

theorem executeStage_of_ne (h : s.idex.instruction ≠ a.word) : executeStage a s n = n := if_neg h

theorem memoryStage_of_eq (h : s.exmem.instruction = a.word) :
    memoryStage a s n = { n with memwb := nextMemWb s a.memory, dmem := nextDmem s a.memory } :=
  if_pos h

theorem memoryStage_of_ne (h : s.exmem.instruction ≠ a.word) : memoryStage a s n = n := if_neg h

theorem writebackStage_of_eq (h : s.memwb.instruction = a.word) :
    writebackStage a s n = { n with x := nextRegisters s a.retire, wbend := nextWbEnd s } := if_pos h

theorem writebackStage_of_ne (h : s.memwb.instruction ≠ a.word) : writebackStage a s n = n :=
  if_neg h

end stages

/-! ### The part that goes on -/

/-- The snapshot after the part of a row that no test of its own stops. -/
def partAfter (a : StageActions) (s : State) : State :=
  fetchStage a s (decodeStage a s (executeStage a s (memoryStage a s
    (writebackStage a s s.counted))))

/-- A row that neither halts nor faults at retirement goes on, an access in bounds provided. -/
theorem perform_eq_partAfter {a : StageActions} {s : State} (hs : s.status = .running)
    (hhalt : a.retire ≠ .halt) (hillegal : a.retire ≠ .illegal)
    (haccess : s.exmem.instruction = a.word → a.memory ≠ .none →
      inBounds s.exmem.aluResult = true) :
    perform a s = .next (partAfter a s) := by
  have goesOn : prologue a s = none := by
    unfold prologue
    split
    · split
      · exact absurd ‹_› hhalt
      · exact absurd ‹_› hillegal
      · rfl
    · rfl
  have noFault : dataFault a s = none :=
    if_neg fun ⟨hw, hm, hb⟩ => by simp [haccess hw hm] at hb
  rw [perform, if_pos hs, goesOn, noFault]
  rfl

section part
variable {a : StageActions} {s : State}

theorem partAfter_exmem (h : s.idex.instruction = a.word) :
    (partAfter a s).exmem =
      nextExMem s (a.alu (effA s) (effB s) s.idex.offset) a.branches := by
  simp [partAfter, executeStage_of_eq _ h]

theorem partAfter_memwb (h : s.exmem.instruction = a.word) :
    (partAfter a s).memwb = nextMemWb s a.memory := by
  simp [partAfter, memoryStage_of_eq _ h]

theorem partAfter_x (h : s.memwb.instruction = a.word) :
    (partAfter a s).x = nextRegisters s a.retire := by
  simp [partAfter, writebackStage_of_eq _ h]

theorem partAfter_wbend (h : s.memwb.instruction = a.word) :
    (partAfter a s).wbend = nextWbEnd s := by
  simp [partAfter, writebackStage_of_eq _ h]

variable (a s)

/-- A part writes the output of the stages its instruction stands in, and nothing else. -/
theorem partFrame_partAfter (hs : s.status = .running) : PartFrame a.word s (partAfter a s) where
  running := by simp [partAfter, hs]
  counted := by simp [partAfter]
  imem := by simp [partAfter]
  fetch h := by simp [partAfter, fetchStage_of_ne _ h]
  decode h := by simp [partAfter, decodeStage_of_ne _ h]
  execute h := by simp [partAfter, executeStage_of_ne _ h]
  memory h := by simp [partAfter, memoryStage_of_ne _ h]
  writeback h := by simp [partAfter, writebackStage_of_ne _ h]

/-- A part changes no register but the one its row commits to. -/
theorem readReg_partAfter_of_ne {r : Reg} (h : a.retire ≠ .write r) :
    readReg (partAfter a s).x r = readReg s.x r := by
  by_cases hw : s.memwb.instruction = a.word
  · rw [partAfter_x hw]
    exact (readReg_nextRegisters s a.retire r).resolve_right h
  · simp [partAfter, writebackStage_of_ne _ hw]

/-- Only a store's part writes data memory. -/
theorem partAfter_dmem_of_ne_store (h : a.memory ≠ .store) : (partAfter a s).dmem = s.dmem := by
  by_cases hw : s.exmem.instruction = a.word
  · simp [partAfter, memoryStage_of_eq _ hw, nextDmem, h]
  · simp [partAfter, memoryStage_of_ne _ hw]

end part

/-- No tick both stalls and squashes: one needs an LW in ID/EX, the other a BEQ (R120). -/
theorem branchTaken_eq_false_of_stall {s : State} (h : stall s = true) : branchTaken s = false := by
  have hlw : op s.idex.instruction = some .lw := by
    simpa using And.left (Bool.and_eq_true_iff.1 h)
  simp [branchTaken, hlw]

theorem stall_eq_false_of_branchTaken {s : State} (h : branchTaken s = true) : stall s = false := by
  by_contra hstall
  simp [branchTaken_eq_false_of_stall (eq_true_of_ne_false hstall)] at h

/-- Every part does in IF and ID what those stages do for every instruction. -/
theorem partFetchDecode_partAfter (a : StageActions) (s : State) :
    PartFetchDecode a.word a.offset s (partAfter a s) where
  fetched h hstall htaken := by
    simp [partAfter, fetchStage_of_eq _ h, nextIfId, nextPc, hstall, htaken]
  fetchedAndSquashed h htaken := by
    simp [partAfter, fetchStage_of_eq _ h, nextIfId, nextPc, htaken,
      stall_eq_false_of_branchTaken htaken]
  fetchedAndDiscarded h hstall := by
    simp [partAfter, fetchStage_of_eq _ h, nextIfId, nextPc, hstall,
      branchTaken_eq_false_of_stall hstall]
  decoded h := by
    simp [partAfter, decodeStage_of_eq _ h, nextIdEx, h]

end Sys2Proof.Machine

/-! SUPPORT. ADD and NAND as one kind of instruction word: two register operands, one register result,
no use of the immediate. -/

namespace Sys2Proof.Machine

/-- `w` is an ADD or a NAND that writes `result` of registers `a` and `b` to register `d`. -/
structure ArithWord (w : Word) (a b d : Reg) (result : Word → Word → Word) : Prop where
  opcode : op w = some .add ∨ op w = some .nand
  sourceA : regA w = a
  sourceB : regB w = b
  dest : destField w = d
  alu : ∀ x y offset, Reference.alu (op w) x y offset = result x y

theorem arithWord_add (a b d : Reg) (u : BitVec 13) :
    ArithWord (encode (.add a b u d)) a b d (fun x y => x + y) where
  opcode := .inl (op_encode _)
  sourceA := regA_layout _ _ _ _
  sourceB := regB_layout _ _ _ _
  dest := destField_layout _ _ _ _ _
  alu x y offset := by rw [op_encode]; rfl

theorem arithWord_nand (a b d : Reg) (u : BitVec 13) :
    ArithWord (encode (.nand a b u d)) a b d (fun x y => ~~~(x &&& y)) where
  opcode := .inr (op_encode _)
  sourceA := regA_layout _ _ _ _
  sourceB := regB_layout _ _ _ _
  dest := destField_layout _ _ _ _ _
  alu x y offset := by rw [op_encode]; rfl

namespace ArithWord
variable {w : Word} {a b d : Reg} {result : Word → Word → Word} {s : State}

/-- The row of R108 for an ADD or a NAND. -/
theorem rowOf_eq (h : ArithWord w a b d result) :
    rowOf w =
      { word := w, offset := 0#32, alu := fun x y _ => result x y, branches := false
        memory := .none, retire := .write d } := by
  have halu : Reference.alu (op w) = fun x y _ => result x y := by
    funext x y offset
    exact h.alu x y offset
  obtain hop | hop := h.opcode
  all_goals
    rw [hop] at halu
    simp [rowOf, hop, halu, h.dest]

/-- What an ADD or a NAND in ID/EX latches: its result on the forwarded operands (R97, R98). -/
theorem nextExMem_eq (h : ArithWord w a b d result) (hw : s.idex.instruction = w) :
    nextExMem s ((rowOf w).alu (effA s) (effB s) s.idex.offset) (rowOf w).branches =
      { instruction := w, branchTarget := s.idex.pcPlus1
        aluResult := result (forward s a s.idex.readRegA) (forward s b s.idex.readRegB)
        readRegB := forward s b s.idex.readRegB } := by
  simp [h.rowOf_eq, nextExMem, effA, effB, hw, h.sourceA, h.sourceB]

/-- The part of an ADD or a NAND, stage by stage, with its frame. -/
theorem perform_completes (h : ArithWord w a b d result) (hs : s.status = .running) :
    ∃ t, perform (rowOf w) s = .next t ∧
      PartFrame w s t ∧
      PartFetchDecode w 0#32 s t ∧
      (s.idex.instruction = w →
        t.exmem =
          { instruction := w, branchTarget := s.idex.pcPlus1
            aluResult := result (forward s a s.idex.readRegA) (forward s b s.idex.readRegB)
            readRegB := forward s b s.idex.readRegB }) ∧
      (s.exmem.instruction = w →
        t.memwb = { instruction := w, writeData := s.exmem.aluResult }) ∧
      (s.memwb.instruction = w →
        readReg t.x d = s.memwb.writeData ∧
        t.wbend = { instruction := w, writeData := s.memwb.writeData }) ∧
      (∀ r, r ≠ d → readReg t.x r = readReg s.x r) ∧ ∀ c, t.dmem.read c = s.dmem.read c := by
  have hmemory : (rowOf w).memory = .none := by rw [h.rowOf_eq]
  have hretire : (rowOf w).retire = .write d := by rw [h.rowOf_eq]
  have hoffset : (rowOf w).offset = 0#32 := by rw [h.rowOf_eq]
  refine ⟨partAfter (rowOf w) s, ?goesOn, partFrame_partAfter (rowOf w) s hs, ?fetchDecode,
    fun hw => ?execute, fun hw => ?memory, fun hw => ⟨?commit, ?wbend⟩, fun r hr => ?registers,
    fun c => ?dmem⟩
  case goesOn =>
    exact perform_eq_partAfter hs (by simp [hretire]) (by simp [hretire])
      fun _ haccess => absurd hmemory haccess
  case fetchDecode =>
    rw [← hoffset]
    exact partFetchDecode_partAfter (rowOf w) s
  case execute => rw [partAfter_exmem (a := rowOf w) hw, h.nextExMem_eq hw]
  case memory => simp [partAfter_memwb (a := rowOf w) hw, hmemory, nextMemWb, hw]
  case commit => simp [partAfter_x (a := rowOf w) hw, hretire, nextRegisters]
  case wbend => rw [partAfter_wbend (a := rowOf w) hw, nextWbEnd, hw]
  case registers => exact readReg_partAfter_of_ne _ _ (by simpa [hretire] using hr.symm)
  case dmem => rw [partAfter_dmem_of_ne_store _ _ (by simp [hmemory])]

/-- The tick that executes an ADD or a NAND commits its result on the registers in program order, by
forwarding (R132). -/
theorem programOrderRegs_appliedTick (h : ArithWord w a b d result) (hinv : PipelineInvariant s)
    (hw : s.idex.instruction = w) :
    programOrderRegs (appliedTick s) =
      writeReg (programOrderRegs s) d
        (result (readReg (programOrderRegs s) a) (readReg (programOrderRegs s) b)) := by
  subst hw
  have notNoop : op s.idex.instruction ≠ some .noop := by
    obtain hop | hop := h.opcode <;> simp [hop]
  have operandA := hinv.effA_eq notNoop
  have operandB := hinv.effB_eq notNoop
  rw [h.sourceA] at operandA
  rw [h.sourceB] at operandB
  have latched : (appliedTick s).exmem.aluResult = result (effA s) (effB s) :=
    h.alu (effA s) (effB s) s.idex.offset
  have moved : (appliedTick s).exmem.instruction = s.idex.instruction := rfl
  rw [Machine.programOrderRegs_appliedTick, ← operandA, ← operandB, ← latched]
  obtain hop | hop := h.opcode <;>
    simp [committed, isSource, destReg, memoryResult, moved, hop, h.dest]

/-- ADD and NAND in program order: the destination, every other register, data memory. -/
theorem effect_in_program_order (h : ArithWord w a b d result) (hinv : PipelineInvariant s)
    (happlies : TickApplies s) (hw : s.idex.instruction = w) :
    ∃ t, step s = .next t ∧
      readReg (programOrderRegs t) d =
        result (readReg (programOrderRegs s) a) (readReg (programOrderRegs s) b) ∧
      (∀ r, r ≠ d → readReg (programOrderRegs t) r = readReg (programOrderRegs s) r) ∧
      programOrderMem t = programOrderMem s := by
  have notStore : op s.idex.instruction ≠ some .sw := by
    obtain hop | hop := h.opcode <;> simp [hw, hop]
  refine ⟨appliedTick s, step_applies happlies, ?_, fun r hr => ?_,
    programOrderMem_appliedTick notStore⟩
  · rw [h.programOrderRegs_appliedTick hinv hw, readReg_writeReg_self]
  · rw [h.programOrderRegs_appliedTick hinv hw, readReg_writeReg_of_ne _ _ hr]

end ArithWord

end Sys2Proof.Machine

/-! The statements about ADD and NAND, and the example words of the encoding. -/

namespace Sys2Proof.Machine

/-- Settles O39: an ADD's result on its forwarded operands, committed in program order. -/
theorem addWritesTheSumInProgramOrder : Obligations.AddWritesTheSumInProgramOrder :=
  fun a b d u _ => (arithWord_add a b d u).effect_in_program_order

/-- Settles O40: a NAND's result on its forwarded operands, committed in program order. -/
theorem nandWritesTheNandInProgramOrder : Obligations.NandWritesTheNandInProgramOrder :=
  fun a b d u _ => (arithWord_nand a b d u).effect_in_program_order

/-- Settles O46: ADD's part is its row of R108 performed. -/
theorem addPartCompletes : Obligations.AddPartCompletes := by
  intro a b d u s hs
  rw [exec_eq_perform]
  exact (arithWord_add a b d u).perform_completes hs

/-- Settles O47: NAND's part is its row of R108 performed. -/
theorem nandPartCompletes : Obligations.NandPartCompletes := by
  intro a b d u s hs
  rw [exec_eq_perform]
  exact (arithWord_nand a b d u).perform_completes hs

end Sys2Proof.Machine

namespace Sys2Proof

/-- The decoder answers an instruction exactly on that instruction's encoding. -/
theorem decode_eq_ok_iff (w : Word) (i : Instr) : decode w = .ok i ↔ encode i = w := by
  refine ⟨encode_of_decode, ?_⟩
  rintro rfl
  exact decode_encode i

/-- Settles O5: each word is the encoding of the instruction it stands for, and 0x02000000 has no
opcode. -/
theorem exampleWordsDecodeAsTheSpecSays : Obligations.ExampleWordsDecodeAsTheSpecSays := by
  simp only [Obligations.ExampleWordsDecodeAsTheSpecSays, decode_eq_ok_iff,
    decode_eq_illegalOpcode_iff]
  decide

end Sys2Proof

/-! SUPPORT. Laws of program order and of a part without a register result or with a store. -/

namespace Sys2Proof.Machine

/-- The tick that executes an instruction without a register result keeps the registers in program
order. -/
theorem programOrderRegs_appliedTick_of_not_isSource {s : State}
    (h : isSource s.idex.instruction = false) :
    programOrderRegs (appliedTick s) = programOrderRegs s := by
  simp [programOrderRegs_appliedTick, committed, h]

/-- The store in EX/MEM of an applied tick keeps data memory canonical: its address is in bounds. -/
theorem TickApplies.programOrderMem_wf {s : State} (happlies : TickApplies s)
    (hwf : s.dmem.wf = true) : (programOrderMem s).wf = true := by
  unfold programOrderMem
  split
  · rename_i hsw
    exact Memory.write_wf _ (address_lt (happlies.dataInBounds (.inr hsw))) hwf
  · exact hwf

theorem partAfter_dmem {a : StageActions} {s : State} (h : s.exmem.instruction = a.word) :
    (partAfter a s).dmem = nextDmem s a.memory := by
  simp [partAfter, memoryStage_of_eq _ h]

end Sys2Proof.Machine

/-! SUPPORT. LW and SW as one kind of instruction word: a base register, an offset, and a register
loaded or stored (spec/41_loadstore.md, R77). -/

namespace Sys2Proof.Machine

/-- `w` is an LW or an SW with base register `a`, data register `b` and offset `o`. -/
structure AccessWord (w : Word) (a b : Reg) (o : BitVec 16) : Prop where
  opcode : accessesMemory w
  base : regA w = a
  data : regB w = b
  displacement : immediateField w = o.signExtend 32

theorem accessWord_lw (a b : Reg) (o : BitVec 16) : AccessWord (encode (.lw a b o)) a b o where
  opcode := .inl (op_encode _)
  base := regA_layout _ _ _ _
  data := regB_layout _ _ _ _
  displacement := immediateField_layout _ _ _ _

theorem accessWord_sw (a b : Reg) (o : BitVec 16) : AccessWord (encode (.sw a b o)) a b o where
  opcode := .inr (op_encode _)
  base := regA_layout _ _ _ _
  data := regB_layout _ _ _ _
  displacement := immediateField_layout _ _ _ _

namespace AccessWord
variable {w : Word} {a b : Reg} {o : BitVec 16} {s : State}

/-! ### The row of R108 -/

theorem rowOf_offset (h : AccessWord w a b o) : (rowOf w).offset = o.signExtend 32 := by
  obtain hop | hop := h.opcode <;> simp [rowOf, hop, h.displacement]

theorem rowOf_retire_ne_halt (h : AccessWord w a b o) : (rowOf w).retire ≠ .halt := by
  obtain hop | hop := h.opcode <;> simp [rowOf, hop]

theorem rowOf_retire_ne_illegal (h : AccessWord w a b o) : (rowOf w).retire ≠ .illegal := by
  obtain hop | hop := h.opcode <;> simp [rowOf, hop]

/-- What an LW or an SW in ID/EX latches: the sum of the forwarded base and the offset, and the
forwarded data register (R97, R98, R100). -/
theorem nextExMem_eq (h : AccessWord w a b o) (hw : s.idex.instruction = w) :
    nextExMem s ((rowOf w).alu (effA s) (effB s) s.idex.offset) (rowOf w).branches =
      { instruction := w, branchTarget := s.idex.pcPlus1
        aluResult := forward s a s.idex.readRegA + s.idex.offset
        readRegB := forward s b s.idex.readRegB } := by
  obtain hop | hop := h.opcode <;>
    simp [nextExMem, rowOf, hop, Reference.alu, effA, effB, hw, h.base, h.data]

/-! ### The part, as far as LW and SW share it -/

theorem perform_eq_partAfter (h : AccessWord w a b o) (hs : s.status = .running)
    (hbounds : s.exmem.instruction = w → inBounds s.exmem.aluResult = true) :
    perform (rowOf w) s = .next (partAfter (rowOf w) s) :=
  Machine.perform_eq_partAfter hs h.rowOf_retire_ne_halt h.rowOf_retire_ne_illegal
    fun hw _ => hbounds hw

theorem partFetchDecode_partAfter (h : AccessWord w a b o) :
    PartFetchDecode w (o.signExtend 32) s (partAfter (rowOf w) s) := by
  rw [← h.rowOf_offset]
  exact Machine.partFetchDecode_partAfter (rowOf w) s

theorem partAfter_exmem (h : AccessWord w a b o) (hw : s.idex.instruction = w) :
    (partAfter (rowOf w) s).exmem =
      { instruction := w, branchTarget := s.idex.pcPlus1
        aluResult := forward s a s.idex.readRegA + s.idex.offset
        readRegB := forward s b s.idex.readRegB } := by
  rw [Machine.partAfter_exmem (a := rowOf w) hw, h.nextExMem_eq hw]

/-! ### The tick that executes it -/

/-- After the tick that executes an LW or an SW, EX/MEM holds it with its effective address and its
data register in program order (R77, R132). -/
theorem appliedTick_exmem (h : AccessWord w a b o) (hinv : PipelineInvariant s)
    (hw : s.idex.instruction = w) :
    (appliedTick s).exmem =
      { instruction := w, branchTarget := s.idex.pcPlus1
        aluResult := readReg (programOrderRegs s) a + o.signExtend 32
        readRegB := readReg (programOrderRegs s) b } := by
  subst hw
  obtain ⟨notNoop, notAdd, notNand⟩ : op s.idex.instruction ≠ some .noop ∧
      op s.idex.instruction ≠ some .add ∧ op s.idex.instruction ≠ some .nand := by
    obtain hop | hop := h.opcode <;> simp [hop]
  have operandA := hinv.effA_eq notNoop
  have operandB := hinv.effB_eq notNoop
  have offset := hinv.immediate notNoop notAdd notNand
  rw [effA, h.base] at operandA
  rw [effB, h.data] at operandB
  rw [h.displacement] at offset
  rw [← operandA, ← operandB, ← offset]
  exact h.nextExMem_eq rfl

/-- An effective address out of bounds faults in the next tick (R104), unless the instruction just
older ends the run. -/
theorem step_dataFault (h : AccessWord w a b o) (hinv : PipelineInvariant s)
    (hw : s.idex.instruction = w)
    (hbounds : inBounds (readReg (programOrderRegs s) a + o.signExtend 32) = false)
    (notHalt : op (appliedTick s).memwb.instruction ≠ some .halt)
    (notIllegal : op (appliedTick s).memwb.instruction ≠ none) :
    step (appliedTick s) = .next ((appliedTick s).raise
      (.dataAddressOutOfBounds (readReg (programOrderRegs s) a + o.signExtend 32))) := by
  have moved : (appliedTick s).exmem.instruction = w := hw
  have latched : (appliedTick s).exmem.aluResult =
      readReg (programOrderRegs s) a + o.signExtend 32 := by rw [h.appliedTick_exmem hinv hw]
  rw [← latched] at hbounds ⊢
  exact Machine.step_dataFault rfl notHalt notIllegal (moved.symm ▸ h.opcode) hbounds

/-- An LW commits the word in program order at its effective address to its data register. -/
theorem readReg_programOrderRegs_appliedTick_of_lw (h : AccessWord w a b o) (hlw : op w = some .lw)
    (hinv : PipelineInvariant s) (hw : s.idex.instruction = w) (r : Reg) :
    readReg (programOrderRegs (appliedTick s)) r =
      if b = r then
        (programOrderMem s).read (readReg (programOrderRegs s) a + o.signExtend 32).toNat
      else readReg (programOrderRegs s) r := by
  have loaded : memoryResult (appliedTick s) =
      (programOrderMem s).read (readReg (programOrderRegs s) a + o.signExtend 32).toNat := by
    rw [memoryResult, h.appliedTick_exmem hinv hw, if_pos hlw, appliedTick_dmem, address]
  have destination : forwards w r = decide (b = r) := by
    simp [forwards, isSource, destReg, hlw, h.data]
  rw [programOrderRegs_appliedTick, hw, readReg_committed, loaded, destination]
  simp only [decide_eq_true_eq]

/-- An SW writes its data register to the word at its effective address, all in program order. -/
theorem read_programOrderMem_appliedTick_of_sw (h : AccessWord w a b o) (hsw : op w = some .sw)
    (hinv : PipelineInvariant s) (happlies : TickApplies s) (hw : s.idex.instruction = w)
    (c : Nat) :
    (programOrderMem (appliedTick s)).read c =
      if (readReg (programOrderRegs s) a + o.signExtend 32).toNat = c then
        readReg (programOrderRegs s) b
      else (programOrderMem s).read c := by
  rw [programOrderMem, h.appliedTick_exmem hinv hw, if_pos hsw, appliedTick_dmem,
    Memory.read_write (happlies.programOrderMem_wf hinv.dmemWf), address]

end AccessWord

end Sys2Proof.Machine

/-! The statements about LW and SW. -/

namespace Sys2Proof.Machine

/-- Settles O41: EX latches the address in program order, at which the next tick's MEM reads or
faults. -/
theorem loadWritesTheWordInProgramOrder : Obligations.LoadWritesTheWordInProgramOrder := by
  intro a b o s hinv happlies hw
  have word := accessWord_lw a b o
  have committedRegs := word.readReg_programOrderRegs_appliedTick_of_lw (op_encode _) hinv hw
  have notStore : op s.idex.instruction ≠ some .sw := by simp [hw, Instr.mnemonic]
  refine ⟨appliedTick s, step_applies happlies,
    fun _ => ⟨?loaded, fun r hr => ?otherRegisters, programOrderMem_appliedTick notStore⟩,
    word.step_dataFault hinv hw⟩
  case loaded => rw [committedRegs, if_pos rfl]
  case otherRegisters => rw [committedRegs, if_neg hr.symm]

/-- Settles O42: EX latches address and data in program order, with which the next tick's MEM stores
or faults. -/
theorem storeWritesTheWordInProgramOrder : Obligations.StoreWritesTheWordInProgramOrder := by
  intro a b o s hinv happlies hw
  have word := accessWord_sw a b o
  have noResult : isSource s.idex.instruction = false := by simp [isSource, hw, Instr.mnemonic]
  have storedMem := word.read_programOrderMem_appliedTick_of_sw (op_encode _) hinv happlies hw
  refine ⟨appliedTick s, step_applies happlies,
    programOrderRegs_appliedTick_of_not_isSource noResult,
    fun _ => ⟨?stored, fun c hc => ?otherWords⟩, word.step_dataFault hinv hw⟩
  case stored => rw [storedMem, if_pos rfl]
  case otherWords => rw [storedMem, if_neg hc.symm]

/-- Settles O48: LW's part is its row of R108 performed, which loads in MEM and commits in WB. -/
theorem lwPartCompletes : Obligations.LwPartCompletes := by
  intro a b o s hs hbounds
  have word := accessWord_lw a b o
  have hlw : op (encode (.lw a b o)) = some .lw := op_encode _
  rw [exec_eq_perform]
  generalize encode (.lw a b o) = w at hbounds word hlw ⊢
  have hload : (rowOf w).memory = .load := (rowOf_memory_eq_load_iff w).2 hlw
  have hretire : (rowOf w).retire = .write b :=
    (rowOf_retire_eq_write_iff w b).2 (.inl ⟨hlw, word.data⟩)
  refine ⟨partAfter (rowOf w) s, word.perform_eq_partAfter hs hbounds,
    partFrame_partAfter (rowOf w) s hs, word.partFetchDecode_partAfter, word.partAfter_exmem,
    fun hw => ?memory, fun hw => ⟨?commit, ?wbend⟩, fun r hr => ?registers, fun c => ?dmem⟩
  case memory => simp [partAfter_memwb (a := rowOf w) hw, nextMemWb, hload, hw, address]
  case commit => simp [partAfter_x (a := rowOf w) hw, hretire, nextRegisters]
  case wbend => rw [partAfter_wbend (a := rowOf w) hw, nextWbEnd, hw]
  case registers => exact readReg_partAfter_of_ne _ s (by simpa [hretire] using hr.symm)
  case dmem => rw [partAfter_dmem_of_ne_store _ s (by simp [hload])]

/-- Settles O49: SW's part is its row of R108 performed, which stores in MEM and commits nothing. -/
theorem swPartCompletes : Obligations.SwPartCompletes := by
  intro a b o s hs hwf hbounds
  have word := accessWord_sw a b o
  have hsw : op (encode (.sw a b o)) = some .sw := op_encode _
  rw [exec_eq_perform]
  generalize encode (.sw a b o) = w at hbounds word hsw ⊢
  have hstore : (rowOf w).memory = .store := (rowOf_memory_eq_store_iff w).2 hsw
  have hretire (r : Reg) : (rowOf w).retire ≠ .write r := by simp [rowOf_retire_eq_write_iff, hsw]
  have written (hw : s.exmem.instruction = w) (c : Nat) : (partAfter (rowOf w) s).dmem.read c =
      if s.exmem.aluResult.toNat = c then s.exmem.readRegB else s.dmem.read c := by
    rw [partAfter_dmem (a := rowOf w) hw, nextDmem, if_pos hstore, Memory.read_write hwf, address]
  refine ⟨partAfter (rowOf w) s, word.perform_eq_partAfter hs hbounds,
    partFrame_partAfter (rowOf w) s hs, word.partFetchDecode_partAfter, word.partAfter_exmem,
    fun hw => ⟨?memory, ?stored, fun c hc => ?otherWords⟩, fun hw => ?wbend, ?registers⟩
  case memory => simp [partAfter_memwb (a := rowOf w) hw, nextMemWb, hstore, hw]
  case stored => rw [written hw, if_pos rfl]
  case otherWords => rw [written hw, if_neg hc.symm]
  case wbend => rw [partAfter_wbend (a := rowOf w) hw, nextWbEnd, hw]
  case registers => exact registers_ext fun r => readReg_partAfter_of_ne _ s (hretire r)

end Sys2Proof.Machine

/-! SUPPORT. Laws of BEQ's resolution and of the tick behind it: what EX latches, where the next tick
fetches, and what becomes of the two younger instructions (spec/47_branch_squash.md). -/

namespace Sys2Proof.Machine

/-! ### The resolution in EX -/

/-- A zero difference is equality of the operands (R136). -/
theorem isTaken_branchDifference (x y : Word) : isTaken (branchDifference x y) = true ↔ x = y := by
  rw [isTaken, branchDifference, beq_iff_eq, BitVec.sub_eq_iff_eq_add, BitVec.zero_add, eq_comm]

/-- A branch is found taken exactly on a BEQ in ID/EX with equal effective operands (R136). -/
theorem branchTaken_iff (s : State) :
    branchTaken s = true ↔ op s.idex.instruction = some .beq ∧ effA s = effB s := by
  rw [branchTaken, Bool.and_eq_true, decide_eq_true_iff, isTaken_branchDifference]

/-- What EX latches for a BEQ: the difference, and the target if it is taken (R98, R99). -/
theorem appliedTick_exmem_of_beq {s : State} (h : op s.idex.instruction = some .beq) :
    (appliedTick s).exmem =
      { instruction := s.idex.instruction
        branchTarget :=
          if branchTaken s then s.idex.pcPlus1 + s.idex.offset else s.idex.pcPlus1
        aluResult := effB s - effA s
        readRegB := effB s } := by
  simp [appliedTick, nextExMem, rowOf, Reference.alu, branchTaken, branchDifference, h]

/-- EX/MEM holds a taken BEQ after a tick exactly when the tick found one taken (R136). -/
theorem appliedTick_exmem_takenBranch (s : State) :
    (appliedTick s).exmem.takenBranch = branchTaken s := by
  by_cases h : op s.idex.instruction = some .beq
  · simp [appliedTick_exmem_of_beq h, ExMem.takenBranch, branchTaken, branchDifference]
  · have moved : (appliedTick s).exmem.instruction = s.idex.instruction := rfl
    simp [ExMem.takenBranch, branchTaken, moved, h]

/-! ### The next fetch and the younger instructions -/

/-- Only an LW in ID/EX stalls (R116). -/
theorem stall_eq_false_of_ne_lw {s : State} (h : op s.idex.instruction ≠ some .lw) :
    stall s = false := by
  simp [stall, stallCondition, h]

/-- Behind a BEQ found taken the next fetch is at its target (R94). -/
theorem fetchAddress_appliedTick_of_taken {s : State} (h : branchTaken s = true) :
    fetchAddress (appliedTick s) = s.idex.pcPlus1 + s.idex.offset := by
  rw [fetchAddress, appliedTick_exmem_takenBranch, if_pos h,
    appliedTick_exmem_of_beq ((branchTaken_iff s).1 h).1, if_pos h]

/-- A BEQ found taken squashes the two younger instructions (R138). -/
theorem appliedTick_squashed_of_taken {s : State} (h : branchTaken s = true) :
    (appliedTick s).idex.instruction = noopWord ∧ (appliedTick s).ifid.instruction = noopWord := by
  simp [appliedTick, nextIdEx, nextIfId, h]

/-- With neither a stall nor a taken branch the next fetch is at the following address and the younger
instruction moves on (R93, R95). -/
theorem appliedTick_promoted {s : State} (hstall : stall s = false)
    (htaken : branchTaken s = false) :
    fetchAddress (appliedTick s) = fetchAddress s + 1#32 ∧
      (appliedTick s).idex.instruction = s.ifid.instruction := by
  have hpc : (appliedTick s).pc = fetchAddress s + 1#32 := by simp [appliedTick, nextPc, hstall]
  refine ⟨?_, by simp [appliedTick, nextIdEx, hstall, htaken]⟩
  rw [fetchAddress, appliedTick_exmem_takenBranch, htaken, if_neg Bool.false_ne_true, hpc]

end Sys2Proof.Machine

/-! SUPPORT. Laws of an instruction that only passes through MEM and WB: no access to data memory, no
register written, no end of the run. -/

namespace Sys2Proof.Machine

theorem rowOf_memory_eq_none_iff (w : Word) : (rowOf w).memory = .none ↔ ¬ accessesMemory w := by
  cases ho : op w with
  | none => simp [rowOf, accessesMemory, ho]
  | some m => cases m <;> simp [rowOf, accessesMemory, ho]

/-- The words that retire without a trace (R105). -/
theorem rowOf_retire_eq_nothing_iff (w : Word) :
    (rowOf w).retire = .nothing ↔
      op w = some .sw ∨ op w = some .beq ∨ op w = some .jalr ∨ op w = some .noop := by
  cases ho : op w with
  | none => simp [rowOf, ho]
  | some m => cases m <;> simp [rowOf, ho]

/-- The part of an instruction latches in EX what the applied tick does. -/
theorem partAfter_exmem_eq_appliedTick {w : Word} {s : State} (h : s.idex.instruction = w) :
    (partAfter (rowOf w) s).exmem = (appliedTick s).exmem := by
  subst h
  exact partAfter_exmem rfl

/-- The part of an instruction that passes through MEM and WB, stage by stage, with its frame. -/
theorem perform_passes_through {w : Word} {s : State} (hs : s.status = .running)
    (hmemory : (rowOf w).memory = .none) (hretire : (rowOf w).retire = .nothing) :
    ∃ t, perform (rowOf w) s = .next t ∧
      PartFrame w s t ∧
      PartFetchDecode w (rowOf w).offset s t ∧
      (s.idex.instruction = w → t.exmem = (appliedTick s).exmem) ∧
      (s.exmem.instruction = w →
        t.memwb = { instruction := w, writeData := s.exmem.aluResult }) ∧
      (s.memwb.instruction = w →
        t.wbend = { instruction := w, writeData := s.memwb.writeData }) ∧
      t.x = s.x ∧ ∀ c, t.dmem.read c = s.dmem.read c := by
  refine ⟨partAfter (rowOf w) s, ?goesOn, partFrame_partAfter (rowOf w) s hs,
    partFetchDecode_partAfter (rowOf w) s, partAfter_exmem_eq_appliedTick, fun hw => ?memory,
    fun hw => ?wbend, registers_ext fun r => ?registers, fun c => ?dmem⟩
  case goesOn =>
    exact perform_eq_partAfter hs (by simp [hretire]) (by simp [hretire])
      fun _ haccess => absurd hmemory haccess
  case memory => simp [partAfter_memwb (a := rowOf w) hw, hmemory, nextMemWb, hw]
  case wbend => rw [partAfter_wbend (a := rowOf w) hw, nextWbEnd, hw]
  case registers => exact readReg_partAfter_of_ne _ s (by simp [hretire])
  case dmem => rw [partAfter_dmem_of_ne_store _ s (by simp [hmemory])]

end Sys2Proof.Machine

/-! SUPPORT. BEQ and JALR as one kind of instruction word: two registers read, a low half latched, no
effect past EX (spec/42_control.md). -/

namespace Sys2Proof.Machine

/-- `w` is a BEQ or a JALR with register fields `a` and `b` and low half `v`. -/
structure ControlWord (w : Word) (a b : Reg) (v : BitVec 16) : Prop where
  opcode : op w = some .beq ∨ op w = some .jalr
  fieldA : regA w = a
  fieldB : regB w = b
  lowHalf : immediateField w = v.signExtend 32

theorem controlWord_beq (a b : Reg) (o : BitVec 16) : ControlWord (encode (.beq a b o)) a b o where
  opcode := .inl (op_encode _)
  fieldA := regA_layout _ _ _ _
  fieldB := regB_layout _ _ _ _
  lowHalf := immediateField_layout _ _ _ _

theorem controlWord_jalr (a b : Reg) (u : BitVec 16) :
    ControlWord (encode (.jalr a b u)) a b u where
  opcode := .inr (op_encode _)
  fieldA := regA_layout _ _ _ _
  fieldB := regB_layout _ _ _ _
  lowHalf := immediateField_layout _ _ _ _

namespace ControlWord
variable {w : Word} {a b : Reg} {v : BitVec 16} {s : State}

theorem rowOf_offset (h : ControlWord w a b v) : (rowOf w).offset = v.signExtend 32 := by
  obtain hop | hop := h.opcode <;> simp [rowOf, hop, h.lowHalf]

theorem rowOf_memory (h : ControlWord w a b v) : (rowOf w).memory = .none := by
  rw [rowOf_memory_eq_none_iff]
  obtain hop | hop := h.opcode <;> simp [accessesMemory, hop]

theorem rowOf_retire (h : ControlWord w a b v) : (rowOf w).retire = .nothing := by
  rw [rowOf_retire_eq_nothing_iff]
  exact .inr (h.opcode.imp_right .inl)

theorem effA_eq (h : ControlWord w a b v) (hw : s.idex.instruction = w) :
    effA s = forward s a s.idex.readRegA := by rw [effA, hw, h.fieldA]

theorem effB_eq (h : ControlWord w a b v) (hw : s.idex.instruction = w) :
    effB s = forward s b s.idex.readRegB := by rw [effB, hw, h.fieldB]

/-- What EX latches for a JALR: the sum of its forwarded base and its low half, and no target (R81,
R98). -/
theorem appliedTick_exmem_of_jalr (h : ControlWord w a b v) (hjalr : op w = some .jalr)
    (hw : s.idex.instruction = w) :
    (appliedTick s).exmem =
      { instruction := w, branchTarget := s.idex.pcPlus1
        aluResult := forward s a s.idex.readRegA + s.idex.offset
        readRegB := forward s b s.idex.readRegB } := by
  rw [← h.effA_eq hw, ← h.effB_eq hw]
  simp [appliedTick, nextExMem, rowOf, Reference.alu, hw, hjalr]

/-- A BEQ in ID/EX is found taken exactly when its forwarded operands are equal (R136). -/
theorem branchTaken_iff_forward_eq (h : ControlWord w a b v) (hbeq : op w = some .beq)
    (hw : s.idex.instruction = w) :
    branchTaken s = true ↔ forward s a s.idex.readRegA = forward s b s.idex.readRegB := by
  rw [branchTaken_iff, h.effA_eq hw, h.effB_eq hw, hw]
  exact and_iff_right hbeq

/-- The forwarded operands are equal exactly when the registers are in program order (R132). -/
theorem forward_eq_iff_programOrder_eq (h : ControlWord w a b v) (hinv : PipelineInvariant s)
    (hw : s.idex.instruction = w) :
    forward s a s.idex.readRegA = forward s b s.idex.readRegB ↔
      readReg (programOrderRegs s) a = readReg (programOrderRegs s) b := by
  have notNoop : op s.idex.instruction ≠ some .noop := by
    obtain hop | hop := h.opcode <;> simp [hw, hop]
  rw [← h.effA_eq hw, ← h.effB_eq hw, hinv.effA_eq notNoop, hinv.effB_eq notNoop, hw, h.fieldA,
    h.fieldB]

/-- The low half ID latched is the instruction's own (R95). -/
theorem idex_offset (h : ControlWord w a b v) (hinv : PipelineInvariant s)
    (hw : s.idex.instruction = w) : s.idex.offset = v.signExtend 32 := by
  subst hw
  obtain ⟨notNoop, notAdd, notNand⟩ : op s.idex.instruction ≠ some .noop ∧
      op s.idex.instruction ≠ some .add ∧ op s.idex.instruction ≠ some .nand := by
    obtain hop | hop := h.opcode <;> simp [hop]
  rw [hinv.immediate notNoop notAdd notNand, h.lowHalf]

end ControlWord

end Sys2Proof.Machine

/-! The statements about BEQ, JALR and the other instructions without effect in execute. -/

namespace Sys2Proof.Machine

/-- Settles O43: the forwarded operands are the registers in program order, and on their equality the
tick either squashes and redirects or promotes. -/
theorem branchIsTakenExactlyWhenEqual : Obligations.BranchIsTakenExactlyWhenEqual := by
  intro a b o s hinv happlies hw
  have word := controlWord_beq a b o
  have hop : op s.idex.instruction = some .beq := by simp [hw, Instr.mnemonic]
  have taken_iff := (word.branchTaken_iff_forward_eq (op_encode _) hw).trans
    (word.forward_eq_iff_programOrder_eq hinv hw)
  refine ⟨appliedTick s, step_applies happlies,
    programOrderRegs_appliedTick_of_not_isSource (by simp [isSource, hop]),
    programOrderMem_appliedTick (by simp [hop]), fun heq => ?taken, fun hne => ?notTaken⟩
  case taken =>
    have taken := taken_iff.2 heq
    rw [fetchAddress_appliedTick_of_taken taken, word.idex_offset hinv hw]
    exact ⟨rfl, appliedTick_squashed_of_taken taken⟩
  case notTaken =>
    have notTaken : branchTaken s = false := eq_false_of_ne_true (mt taken_iff.1 hne)
    exact appliedTick_promoted (stall_eq_false_of_ne_lw (by simp [hop])) notTaken

/-- Settles O44: a JALR, a HALT or a NOOP is no forwarding source, no SW, and neither stalls nor
branches. -/
theorem inertInstructionsHaveNoEffect : Obligations.InertInstructionsHaveNoEffect := by
  intro i s hi happlies hw
  have hop : op s.idex.instruction = some i.mnemonic := by rw [hw, op_encode]
  obtain ⟨noResult, notStore, notLoad, notTaken⟩ :
      isSource s.idex.instruction = false ∧ op s.idex.instruction ≠ some .sw ∧
        op s.idex.instruction ≠ some .lw ∧ branchTaken s = false := by
    obtain hm | hm | hm := hi <;> simp [isSource, branchTaken, hop, hm]
  exact ⟨appliedTick s, step_applies happlies,
    programOrderRegs_appliedTick_of_not_isSource noResult, programOrderMem_appliedTick notStore,
    appliedTick_promoted (stall_eq_false_of_ne_lw notLoad) notTaken⟩

/-- Settles O50: BEQ's part is its row of R108 performed, whose EX latch records the resolution. -/
theorem beqPartCompletes : Obligations.BeqPartCompletes := by
  intro a b o s hs
  have word := controlWord_beq a b o
  have hbeq : op (encode (.beq a b o)) = some .beq := op_encode _
  rw [exec_eq_perform]
  obtain ⟨t, goesOn, frame, fetchDecode, latched, passes⟩ :=
    perform_passes_through hs word.rowOf_memory word.rowOf_retire
  rw [word.rowOf_offset] at fetchDecode
  refine ⟨t, goesOn, frame, fetchDecode, fun hw => ?_, passes⟩
  have taken_iff := word.branchTaken_iff_forward_eq hbeq hw
  rw [latched hw, appliedTick_exmem_takenBranch, appliedTick_exmem_of_beq (hw.symm ▸ hbeq),
    word.effA_eq hw, word.effB_eq hw]
  refine ⟨hw, rfl, rfl, fun heq => ?taken, fun hne => ?notTaken⟩
  case taken =>
    have taken := taken_iff.2 heq
    exact ⟨taken, taken, if_pos taken⟩
  case notTaken =>
    have notTaken : branchTaken s = false := eq_false_of_ne_true (mt taken_iff.1 hne)
    exact ⟨notTaken, notTaken, if_neg (by simp [notTaken])⟩

/-- Settles O51: JALR's part is its row of R108 performed, which latches a sum that nothing uses. -/
theorem jalrPartCompletes : Obligations.JalrPartCompletes := by
  intro a b u s hs
  have word := controlWord_jalr a b u
  rw [exec_eq_perform]
  obtain ⟨t, goesOn, frame, fetchDecode, latched, passes⟩ :=
    perform_passes_through hs word.rowOf_memory word.rowOf_retire
  rw [word.rowOf_offset] at fetchDecode
  refine ⟨t, goesOn, frame, fetchDecode, fun hw => ?_, passes⟩
  rw [latched hw, word.appliedTick_exmem_of_jalr (op_encode _) hw]

end Sys2Proof.Machine

/-! SUPPORT. Laws of a part around retirement: a row that its own retirement ends the run, and a row
without an access to data memory that has not reached MEM/WB. -/

namespace Sys2Proof.Machine

section retirement
variable {a : StageActions} {s t : State}

/-- A row that the prologue stops has the stopped snapshot as its part (R92). -/
theorem perform_of_prologue (hs : s.status = .running) (h : prologue a s = some t) :
    perform a s = .next t := by
  rw [perform, if_pos hs, h]

theorem prologue_of_halt (hw : s.memwb.instruction = a.word) (h : a.retire = .halt) :
    prologue a s = some s.halt := by
  rw [prologue, if_pos hw, h]

theorem prologue_of_illegal (hw : s.memwb.instruction = a.word) (h : a.retire = .illegal) :
    prologue a s = some (s.raise (.illegalOpcode a.word)) := by
  rw [prologue, if_pos hw, h]

theorem prologue_of_ne (hw : s.memwb.instruction ≠ a.word) : prologue a s = none := if_neg hw

theorem dataFault_of_memory_none (h : a.memory = .none) : dataFault a s = none :=
  if_neg fun ⟨_, haccess, _⟩ => haccess h

/-- However a row retires, before MEM/WB and without an access to data memory its part goes on. -/
theorem perform_eq_partAfter_before_memwb (hs : s.status = .running) (hmemory : a.memory = .none)
    (hw : s.memwb.instruction ≠ a.word) : perform a s = .next (partAfter a s) := by
  rw [perform, if_pos hs, prologue_of_ne hw, dataFault_of_memory_none hmemory]
  rfl

end retirement

end Sys2Proof.Machine

/-! SUPPORT. NOOP, HALT and the illegal words as one kind of word: no effect on registers and memory in
any stage, whatever becomes of it in MEM/WB (spec/43_system.md). -/

namespace Sys2Proof.Machine

/-- `w` is a NOOP, a HALT or an illegal word. -/
def SystemWord (w : Word) : Prop := op w = some .noop ∨ op w = some .halt ∨ op w = none

theorem systemWord_noop (u : BitVec 22) : SystemWord (encode (.noop u)) := .inl (op_encode _)

theorem systemWord_halt (u : BitVec 22) : SystemWord (encode (.halt u)) :=
  .inr (.inl (op_encode _))

theorem systemWord_illegal {w : Word} (h : op w = none) : SystemWord w := .inr (.inr h)

namespace SystemWord
variable {w : Word} {s : State}

theorem rowOf_offset (h : SystemWord w) : (rowOf w).offset = immediateField w := by
  obtain hop | hop | hop := h <;> simp [rowOf, hop]

theorem rowOf_memory (h : SystemWord w) : (rowOf w).memory = .none := by
  rw [rowOf_memory_eq_none_iff]
  obtain hop | hop | hop := h <;> simp [accessesMemory, hop]

/-- What EX latches for a word without effect: a sum that nothing uses, and no target (R98, R99). -/
theorem appliedTick_exmem (h : SystemWord w) (hw : s.idex.instruction = w) :
    (appliedTick s).exmem =
      { instruction := w, branchTarget := s.idex.pcPlus1
        aluResult := effA s + s.idex.offset, readRegB := effB s } := by
  obtain hop | hop | hop := h <;> simp [appliedTick, nextExMem, rowOf, Reference.alu, hw, hop]

/-- The part of a word without effect that has not reached MEM/WB, stage by stage, with its frame. -/
theorem perform_passes_before_memwb (h : SystemWord w) (hs : s.status = .running)
    (hbefore : s.memwb.instruction ≠ w) :
    ∃ t, perform (rowOf w) s = .next t ∧
      PartFrame w s t ∧
      PartFetchDecode w (immediateField w) s t ∧
      (s.idex.instruction = w →
        t.exmem =
          { instruction := w, branchTarget := s.idex.pcPlus1
            aluResult := effA s + s.idex.offset, readRegB := effB s }) ∧
      (s.exmem.instruction = w →
        t.memwb = { instruction := w, writeData := s.exmem.aluResult }) ∧
      t.x = s.x ∧ ∀ c, t.dmem.read c = s.dmem.read c := by
  have frame : PartFrame w s (partAfter (rowOf w) s) := partFrame_partAfter (rowOf w) s hs
  obtain ⟨registers, -⟩ := frame.writeback hbefore
  refine ⟨partAfter (rowOf w) s, perform_eq_partAfter_before_memwb hs h.rowOf_memory hbefore, frame,
    ?fetchDecode, fun hw => ?execute, fun hw => ?memory, registers, fun c => ?dmem⟩
  case fetchDecode =>
    rw [← h.rowOf_offset]
    exact partFetchDecode_partAfter (rowOf w) s
  case execute => rw [partAfter_exmem_eq_appliedTick hw, h.appliedTick_exmem hw]
  case memory => simp [partAfter_memwb (a := rowOf w) hw, nextMemWb, h.rowOf_memory, hw]
  case dmem => rw [partAfter_dmem_of_ne_store _ s (by simp [h.rowOf_memory])]

end SystemWord

end Sys2Proof.Machine

/-! The statements about the parts of NOOP, HALT and the illegal words. -/

namespace Sys2Proof.Machine

/-- Settles O52: NOOP's part is its row of R108 performed, which passes through MEM and WB. -/
theorem noopPartCompletes : Obligations.NoopPartCompletes := by
  intro u s hs
  have word := systemWord_noop u
  have hretire : (rowOf (encode (.noop u))).retire = .nothing :=
    (rowOf_retire_eq_nothing_iff _).2 (.inr (.inr (.inr (op_encode _))))
  rw [exec_eq_perform]
  obtain ⟨t, goesOn, frame, fetchDecode, latched, passes⟩ :=
    perform_passes_through hs word.rowOf_memory hretire
  rw [word.rowOf_offset] at fetchDecode
  refine ⟨t, goesOn, frame, fetchDecode, fun hw => ?_, passes⟩
  rw [latched hw, word.appliedTick_exmem hw]

/-- Settles O53: HALT's part is its row of R108 performed, which the prologue stops in MEM/WB only. -/
theorem haltPartCompletes : Obligations.HaltPartCompletes := by
  intro u s hs
  have hretire : (rowOf (encode (.halt u))).retire = .halt := by simp [rowOf, Instr.mnemonic]
  rw [exec_eq_perform]
  exact ⟨fun hw => perform_of_prologue hs (prologue_of_halt hw hretire),
    (systemWord_halt u).perform_passes_before_memwb hs⟩

/-- Settles O55: an illegal word's part is its row performed, which the prologue faults in MEM/WB
only. -/
theorem illegalWordFaultsOnlyWhenItWouldRetire :
    Obligations.IllegalWordFaultsOnlyWhenItWouldRetire := by
  intro w s hillegal hs
  have hop : op w = none := (op_eq_none_iff w).2 hillegal
  have hretire : (rowOf w).retire = .illegal := by simp [rowOf, hop]
  rw [partOf_eq_perform]
  exact ⟨fun hw => perform_of_prologue hs (prologue_of_illegal hw hretire),
    (systemWord_illegal hop).perform_passes_before_memwb hs⟩

end Sys2Proof.Machine

/-! SUPPORT. The conditions and the fields of a tick as the spec writes them: each control signal by its
rule, each field of the applied tick in terms of the old snapshot alone (R92 to R106). -/

namespace Sys2Proof.Machine

/-! ### The control signals -/

/-- The bounds test as R36 writes it, on the signed address. -/
theorem inBounds_iff_toInt (a : Word) : inBounds a = true ↔ 0 ≤ a.toInt ∧ a.toInt ≤ 65535 := by
  have bound : ((Config.memWords : Nat) : Int) = 65536 := rfl
  rw [inBounds, bound, Bool.and_eq_true, decide_eq_true_iff, decide_eq_true_iff]
  omega

theorem inBounds_eq_false_iff (a : Word) :
    inBounds a = false ↔ a.toInt < 0 ∨ 65535 < a.toInt := by
  rw [← Bool.not_eq_true, inBounds_iff_toInt]
  omega

/-- EX/MEM holds a taken BEQ (R94). -/
theorem ExMem.takenBranch_iff (l : ExMem) :
    l.takenBranch = true ↔ op l.instruction = some .beq ∧ l.aluResult = 0#32 := by
  simp [ExMem.takenBranch, isTaken]

/-- The fetch address as R93 and R94 write it. -/
theorem fetchAddress_eq (s : State) :
    fetchAddress s =
      if op s.exmem.instruction = some .beq ∧ s.exmem.aluResult = 0#32
      then s.exmem.branchTarget else s.pc := by
  simp only [fetchAddress, ExMem.takenBranch_iff]

/-- The hazard unit's condition as R116 writes it. -/
theorem stall_iff (s : State) :
    stall s = true ↔
      op s.idex.instruction = some .lw ∧
        (regB s.idex.instruction = regA s.ifid.instruction ∨
          (op s.ifid.instruction ≠ some .noop ∧
            regB s.idex.instruction = regB s.ifid.instruction)) := by
  simp [stall, stallCondition]

/-- The ALU's sum for every opcode without a row of its own, an illegal word's too (R98). -/
theorem Reference.alu_default {o : Option Mnemonic} {effA effB offset : Word}
    (hadd : o ≠ some .add) (hnand : o ≠ some .nand) (hbeq : o ≠ some .beq) :
    Reference.alu o effA effB offset = effA + offset := by
  unfold Reference.alu
  split
  · exact absurd rfl hadd
  · exact absurd rfl hnand
  · exact absurd rfl hbeq
  · rfl

/-! ### The fields of an applied tick -/

theorem appliedTick_x (s : State) :
    (appliedTick s).x = committed s.x s.memwb.instruction s.memwb.writeData :=
  nextRegisters_rowOf s

/-- The new pc: held at the fetch address by a stall (R93, R118). -/
theorem appliedTick_pc (s : State) :
    (appliedTick s).pc = if stall s then fetchAddress s else fetchAddress s + 1#32 := rfl

/-- The new IF/ID (R93, R118, R138). -/
theorem appliedTick_ifid (s : State) :
    (appliedTick s).ifid =
      { instruction :=
          if branchTaken s then noopWord
          else if stall s then s.ifid.instruction
          else s.imem.read (address (fetchAddress s))
        pcPlus1 := if stall s then s.ifid.pcPlus1 else fetchAddress s + 1#32 } := by
  simp only [appliedTick, nextIfId]
  split <;> split <;> rfl

/-- The new ID/EX (R95, R118, R138). -/
theorem appliedTick_idex (s : State) :
    (appliedTick s).idex =
      { instruction := if stall s || branchTaken s then noopWord else s.ifid.instruction
        pcPlus1 := s.ifid.pcPlus1
        readRegA := readReg s.x (regA s.ifid.instruction)
        readRegB := readReg s.x (regB s.ifid.instruction)
        offset :=
          if op s.ifid.instruction = some .add ∨ op s.ifid.instruction = some .nand then 0#32
          else immediateField s.ifid.instruction } := rfl

/-- The new EX/MEM (R97 to R100): the target is latched exactly where a branch is found taken. -/
theorem appliedTick_exmem (s : State) :
    (appliedTick s).exmem =
      { instruction := s.idex.instruction
        branchTarget :=
          if branchTaken s then s.idex.pcPlus1 + s.idex.offset else s.idex.pcPlus1
        aluResult := Reference.alu (op s.idex.instruction) (effA s) (effB s) s.idex.offset
        readRegB := effB s } := by
  by_cases hbeq : op s.idex.instruction = some .beq
  · rw [appliedTick_exmem_of_beq hbeq, hbeq]
    rfl
  · simp [appliedTick, nextExMem, rowOf, branchTaken, hbeq]

end Sys2Proof.Machine

/-! SUPPORT. Laws of the pipeline invariant: what an applied tick leaves behind a NOOP-ed or promoted
instruction, and that no step breaks the invariant (R109). -/

namespace Sys2Proof.Machine

/-- An instruction other than a NOOP in the new ID/EX was promoted: no stall, no squash (R118, R138). -/
theorem promoted_of_ne_noop {s : State} (h : op (appliedTick s).idex.instruction ≠ some .noop) :
    stall s = false ∧ (appliedTick s).idex.instruction = s.ifid.instruction := by
  rw [appliedTick_idex] at h ⊢
  cases hreplaced : stall s || branchTaken s with
  | true => simp [hreplaced] at h
  | false => exact ⟨(Bool.or_eq_false_iff.1 hreplaced).1, rfl⟩

/-- A raw operand that ID reads behind a retiring instruction is made current by WB/END (R131). -/
theorem latchedOperand_appliedTick (s : State) (r : Reg) :
    latchedOperand (appliedTick s) r (readReg s.x r) = readReg (appliedTick s).x r := by
  rw [appliedTick_x, readReg_committed]
  rfl

/-- The address behind an in-bounds one is at most 65536 (R109 (e)). -/
theorem toNat_add_one_le_of_inBounds {a : Word} (h : inBounds a = true) :
    (a + 1#32).toNat ≤ 65536 := by
  rw [inBounds_iff] at h
  bv_omega

/-- The invariant says nothing about the run status. -/
theorem PipelineInvariant.of_status {s : State} (h : PipelineInvariant s) (status : Status) :
    PipelineInvariant { s with status := status } :=
  { h with }

/-- An applied tick keeps the invariant. -/
theorem PipelineInvariant.of_appliedTick {s : State} (h : PipelineInvariant s) (ha : TickApplies s) :
    PipelineInvariant (appliedTick s) where
  imemWf := h.imemWf
  dmemWf := by
    rw [appliedTick_dmem]
    exact ha.programOrderMem_wf h.dmemWf
  pcRange := by
    have next := toNat_add_one_le_of_inBounds ha.fetchInBounds
    have current := (inBounds_iff _).1 ha.fetchInBounds
    rw [appliedTick_pc]
    split
    · omega
    · exact next
  ifidRange := by
    rw [appliedTick_ifid]
    dsimp only
    split
    · exact h.ifidRange
    · exact toNat_add_one_le_of_inBounds ha.fetchInBounds
  idexRange := h.ifidRange
  squashed taken := by
    rw [appliedTick_exmem_takenBranch] at taken
    exact appliedTick_squashed_of_taken taken
  loadUse hlw hnoop := by
    obtain ⟨noStall, promoted⟩ := promoted_of_ne_noop hnoop
    rw [promoted] at hnoop ⊢
    have noMatch := mt (stall_iff s).2 (by simp [noStall])
    exact ⟨fun hA => noMatch ⟨hlw, .inl hA.symm⟩, fun hB => noMatch ⟨hlw, .inr ⟨hnoop, hB.symm⟩⟩⟩
  operandA hnoop := by
    rw [(promoted_of_ne_noop hnoop).2]
    exact latchedOperand_appliedTick s _
  operandB hnoop := by
    rw [(promoted_of_ne_noop hnoop).2]
    exact latchedOperand_appliedTick s _
  immediate hnoop hadd hnand := by
    rw [(promoted_of_ne_noop hnoop).2] at hadd hnand ⊢
    exact if_neg (not_or.2 ⟨hadd, hnand⟩)

/-- Every step keeps the invariant: a stop changes only the status. -/
theorem PipelineInvariant.of_step {s t : State} (h : PipelineInvariant s) (hst : step s = .next t) :
    PipelineInvariant t := by
  obtain ⟨-, rfl⟩ | ⟨-, rfl | ⟨f, rfl⟩⟩ | ⟨ha, rfl⟩ := step_eq_next hst
  · exact h
  · exact h.of_status .halted
  · exact h.of_status (.faulted f)
  · exact h.of_appliedTick ha

/-- Every snapshot reached from the reset snapshot of an image that fits meets the invariant. -/
theorem pipelineInvariant_of_ticks {image : List Word} (hfits : image.length ≤ 65536) {k : Nat}
    {t : State} (run : ticks k (bootState image) = .next t) : PipelineInvariant t :=
  ticks_induction (P := PipelineInvariant) (fun _ _ hst h => h.of_step hst) run
    (bootState_invariant hfits)

end Sys2Proof.Machine

/-! The statements about the invariant of the pipeline. -/

namespace Sys2Proof.Machine

/-- Settles O35: every answer a step has keeps the invariant. -/
theorem stepKeepsThePipelineInvariant : Obligations.StepKeepsThePipelineInvariant :=
  fun _ _ h hst => h.of_step hst

/-- Settles O36: the clauses of the invariant, which every run from a reset snapshot meets. -/
theorem reachableSnapshotsAreSquashedAndInterlocked :
    Obligations.ReachableSnapshotsAreSquashedAndInterlocked := by
  intro image k t hfits run
  have h := pipelineInvariant_of_ticks hfits run
  exact ⟨fun hbeq hzero => h.squashed ((ExMem.takenBranch_iff _).2 ⟨hbeq, hzero⟩), h.loadUse,
    h.pcRange, h.ifidRange, h.idexRange⟩

end Sys2Proof.Machine

/-! SUPPORT. What the stages do by opcode: the memory stage's two results, and the commit of a
retiring instruction. -/

namespace Sys2Proof.Machine

theorem memoryResult_of_lw {s : State} (h : op s.exmem.instruction = some .lw) :
    memoryResult s = s.dmem.read (address s.exmem.aluResult) := if_pos h

theorem memoryResult_of_ne_lw {s : State} (h : op s.exmem.instruction ≠ some .lw) :
    memoryResult s = s.exmem.aluResult := if_neg h

theorem appliedTick_dmem_of_ne_sw {s : State} (h : op s.exmem.instruction ≠ some .sw) :
    (appliedTick s).dmem = s.dmem := by
  rw [appliedTick_dmem]
  exact if_neg h

/-- The commit as R105 writes it, by opcode. -/
theorem committed_by_opcode (x : Registers) (w v : Word) :
    committed x w v =
      if op w = some .lw then writeReg x (regB w) v
      else if op w = some .add ∨ op w = some .nand then writeReg x (destField w) v
      else x := by
  cases hop : op w with
  | none => simp [committed, isSource, hop]
  | some m => cases m <;> simp [committed, isSource, destReg, hop]

/-- A register write is read back from its register, and from no other. -/
theorem writeReg_writes_one (x : Registers) (d : Reg) (v : Word) :
    readReg (writeReg x d v) d = v ∧ ∀ r, r ≠ d → readReg (writeReg x d v) r = readReg x r :=
  ⟨readReg_writeReg_self x d v, fun _ hr => readReg_writeReg_of_ne x v hr⟩

end Sys2Proof.Machine

/-! The statements about the five stages (spec/44_pipeline_stages.md sections 2 to 6). -/

namespace Sys2Proof.Machine

/-- Settles O18: the fetch fault of a step, and IF/ID and pc of an applied tick. -/
theorem fetchTakesTheWordAtTheFetchAddress :
    Obligations.FetchTakesTheWordAtTheFetchAddress := by
  intro s fa hfa
  rw [← fetchAddress_eq] at hfa
  subst hfa
  refine ⟨fun hs hhalt hlegal hdata hout => ?outOfBounds, fun ha hstall htaken => ?fetched⟩
  case outOfBounds =>
    exact step_pcFault hs hhalt hlegal hdata ((inBounds_eq_false_iff _).2 hout)
  case fetched =>
    obtain ⟨lower, upper⟩ := (inBounds_iff_toInt _).1 ha.fetchInBounds
    refine ⟨appliedTick s, step_applies ha, lower, upper, ?_⟩
    simp [appliedTick_ifid, appliedTick_pc, hstall, htaken, address]

/-- Settles O19: ID/EX of an applied tick, which latches the raw registers whatever the opcode. -/
theorem decodeStageReadsRegistersRaw : Obligations.DecodeStageReadsRegistersRaw := by
  intro s ha
  exact ⟨appliedTick s, step_applies ha, rfl,
    fun hstall htaken => (appliedTick_promoted hstall htaken).2, rfl, rfl, rfl,
    fun harith => if_pos harith, fun hadd hnand => if_neg (not_or.2 ⟨hadd, hnand⟩)⟩

/-- Settles O20: the row of the ALU for each opcode. -/
theorem aluResultByOpcode : Obligations.AluResultByOpcode := by
  intro s ha
  refine ⟨appliedTick s, step_applies ha, ?_⟩
  rw [appliedTick_exmem]
  refine ⟨fun hadd => ?_, fun hnand => ?_, fun hbeq => ?_, Reference.alu_default⟩
  · rw [hadd]; rfl
  · rw [hnand]; rfl
  · rw [hbeq]; rfl

/-- Settles O21: the target is latched where the branch is found taken, which the latched result
records. -/
theorem executeLatchesTargetAndStoreData : Obligations.ExecuteLatchesTargetAndStoreData := by
  intro s ha
  have recorded := ExMem.takenBranch_iff (appliedTick s).exmem
  rw [appliedTick_exmem_takenBranch] at recorded
  refine ⟨appliedTick s, step_applies ha, rfl, rfl, fun hbeq hzero => ?taken, fun hne => ?notTaken⟩
  case taken =>
    have taken := recorded.2 ⟨hbeq, hzero⟩
    rw [appliedTick_exmem]
    exact if_pos taken
  case notTaken =>
    have notTaken := mt recorded.1 hne
    rw [appliedTick_exmem]
    exact if_neg notTaken

/-- Settles O23: MEM/WB of an applied tick holds the result of the EX/MEM occupant. -/
theorem memoryStageLoadsOrPassesTheResult : Obligations.MemoryStageLoadsOrPassesTheResult := by
  intro s ha
  refine ⟨appliedTick s, step_applies ha, ?_⟩
  rw [appliedTick_memwb]
  exact ⟨rfl, memoryResult_of_lw, memoryResult_of_ne_lw⟩

/-- Settles O24: what a read finds behind the store, which is made for an SW only. -/
theorem storeWritesExactlyOneWord : Obligations.StoreWritesExactlyOneWord := by
  intro s ha hwf
  refine ⟨appliedTick s, step_applies ha, rfl, fun hsw => ⟨?stored, fun a hne => ?kept⟩,
    fun hnot a => ?noStore⟩
  case stored => exact (read_appliedTick_dmem_of_sw hwf hsw _).trans (if_pos rfl)
  case kept => exact (read_appliedTick_dmem_of_sw hwf hsw a).trans (if_neg hne.symm)
  case noStore => rw [appliedTick_dmem_of_ne_sw hnot]

/-- Settles O25: the data fault of a step; no other answer of a step raises it. -/
theorem dataAddressOutOfBoundsFaults : Obligations.DataAddressOutOfBoundsFaults := by
  intro s hs hhalt hlegal
  refine ⟨fun haccess hout =>
    step_dataFault hs hhalt hlegal haccess ((inBounds_eq_false_iff _).2 hout),
    fun hno t a hst hfault => ?_⟩
  obtain ⟨hstop, -⟩ | ⟨-, h, -⟩ | ⟨-, h, -⟩ | ⟨-, -, -, haccess, -⟩ | ⟨-, -, -, -, -, e⟩ | ⟨-, e⟩ :=
    step_cases s
  · exact hstop hs
  · exact hhalt h
  · exact hlegal h
  · exact hno haccess
  all_goals
    cases e.symm.trans hst
    cases hfault

/-- Settles O26: writeback commits the retiring instruction's result, if it has one. -/
theorem writebackCommitsToTheDestination : Obligations.WritebackCommitsToTheDestination := by
  intro s ha
  refine ⟨appliedTick s, step_applies ha, ?_⟩
  rw [appliedTick_x, committed_by_opcode]
  refine ⟨fun hlw => ?load, fun harith => ?arith, fun hlw hadd hnand r => ?none⟩
  case load =>
    rw [if_pos hlw]
    exact writeReg_writes_one s.x _ _
  case arith =>
    have notLoad : op s.memwb.instruction ≠ some .lw := by
      obtain h | h := harith <;> simp [h]
    rw [if_neg notLoad, if_pos harith]
    exact writeReg_writes_one s.x _ _
  case none => rw [if_neg hlw, if_neg (not_or.2 ⟨hadd, hnand⟩)]

/-- Settles O27: the applied tick copies the latch whatever the opcode. -/
theorem wbEndCopiesMemWb : Obligations.WbEndCopiesMemWb := fun s ha =>
  ⟨appliedTick s, step_applies ha, rfl, rfl⟩

/-- Settles O31: equal effective operands are a branch found taken, which neither stalls nor lets the
two younger instructions on. -/
theorem takenBranchSquashesTheTwoYounger : Obligations.TakenBranchSquashesTheTwoYounger := by
  intro s ha hbeq heq
  have taken := (branchTaken_iff s).2 ⟨hbeq, heq⟩
  have noStall := stall_eq_false_of_branchTaken taken
  obtain ⟨squashedIdEx, squashedIfId⟩ := appliedTick_squashed_of_taken taken
  refine ⟨appliedTick s, step_applies ha, squashedIdEx, squashedIfId, rfl, rfl, rfl, rfl, ?pcPlus1, ?pc,
    rfl, ?zero⟩
  case pcPlus1 => simp [appliedTick_ifid, noStall]
  case pc => simp [appliedTick_pc, noStall]
  case zero => simp [appliedTick_exmem_of_beq hbeq, heq]

/-- Settles O38: the first tick makes the store in EX/MEM and retires MEM/WB, the second retires what
was in EX/MEM. -/
theorem programOrderIsReached : Obligations.ProgramOrderIsReached := by
  intro s ha
  refine ⟨appliedTick s, step_applies ha, appliedTick_dmem s, fun ha' =>
    ⟨appliedTick (appliedTick s), step_applies ha', ?_⟩⟩
  rw [appliedTick_x, appliedTick_x, appliedTick_memwb]
  rfl

end Sys2Proof.Machine

/-! SUPPORT. A decoded instruction's part in a tick, in terms of its word: the part in an applied tick,
and the parts that stop the run. -/

namespace Sys2Proof.Machine

/-- The part of the instruction a word decodes to is that word's row performed. -/
theorem exec_of_decode {w : Word} {i : Instr} (h : decode w = .ok i) (s : State) :
    exec i s = perform (rowOf w) s := by
  rw [exec_eq_perform, encode_of_decode h]

/-- In an applied tick no test stops the part of any instruction. -/
theorem TickApplies.exec_eq_partAfter {s : State} (ha : TickApplies s) {w : Word} {i : Instr}
    (h : decode w = .ok i) : exec i s = .next (partAfter (rowOf w) s) := by
  rw [exec_of_decode h, perform_of_applies ha]
  rfl

theorem partAfter_idex {a : StageActions} {s : State} (h : s.ifid.instruction = a.word) :
    (partAfter a s).idex = nextIdEx s a.offset := by
  simp [partAfter, decodeStage_of_eq _ h]

/-- The word fetched in an applied tick is the one IF latches. -/
theorem appliedTick_ifid_of_fetched {s : State} {w : Word} (h : fetchedWord s = some w) :
    (appliedTick s).ifid = nextIfId s w := by
  unfold fetchedWord at h
  split at h
  · cases h
    rfl
  · cases h

/-- A row whose access in EX/MEM is out of bounds, behind an instruction that retires, has the data
fault as its part (R104). -/
theorem perform_of_dataFault {s : State} (hs : s.status = .running)
    (hhalt : op s.memwb.instruction ≠ some .halt) (hlegal : op s.memwb.instruction ≠ none)
    (haccess : accessesMemory s.exmem.instruction) (hout : inBounds s.exmem.aluResult = false) :
    perform (rowOf s.exmem.instruction) s =
      .next (s.raise (.dataAddressOutOfBounds s.exmem.aluResult)) := by
  have accesses : (rowOf s.exmem.instruction).memory ≠ .none := by
    rw [ne_eq, rowOf_memory_eq_none_iff, not_not]
    exact haccess
  have faults : dataFault (rowOf s.exmem.instruction) s =
      some (s.raise (.dataAddressOutOfBounds s.exmem.aluResult)) := if_pos ⟨rfl, accesses, hout⟩
  rw [perform, if_pos hs, prologue_rowOf_eq_none hhalt hlegal, faults]

end Sys2Proof.Machine

/-! The statements about the step as the instructions' parts put together. -/

namespace Sys2Proof.Machine

/-- Settles O6: each field of the applied tick is the one its stage's instruction writes as its own
part. -/
theorem stepRunsTheDecodedInstructions : Obligations.StepRunsTheDecodedInstructions := by
  intro s w i ha hfetched hdecode
  refine ⟨partAfter (rowOf w) s, appliedTick s, ha.exec_eq_partAfter hdecode, step_applies ha,
    ?ifid, ?pc, rfl, rfl, rfl, fun d hd => ?decode, fun e he => ?execute, fun k hk => ?memory,
    fun m hm => ?writeback⟩
  case ifid =>
    rw [appliedTick_ifid_of_fetched hfetched, partAfter, fetchStage_ifid_own s _ hfetched]
  case pc => exact (fetchStage_pc_own s _ hfetched).symm
  case decode => exact ⟨_, ha.exec_eq_partAfter hd, (partAfter_idex (a := rowOf _) rfl).symm⟩
  case execute => exact ⟨_, ha.exec_eq_partAfter he, (partAfter_exmem_eq_appliedTick rfl).symm⟩
  case memory =>
    exact ⟨_, ha.exec_eq_partAfter hk, (partAfter_memwb (a := rowOf _) rfl).symm,
      (partAfter_dmem (a := rowOf _) rfl).symm⟩
  case writeback =>
    exact ⟨_, ha.exec_eq_partAfter hm, (partAfter_x (a := rowOf _) rfl).symm,
      (partAfter_wbend (a := rowOf _) rfl).symm⟩

/-- Settles O7: the step and the part of the instruction that stops end in the same stop. -/
theorem stepIsTheStopOfTheInstructionThatStops :
    Obligations.StepIsTheStopOfTheInstructionThatStops := by
  intro s i hs
  refine ⟨fun hdecode hmnemonic => ?halt, fun hdecode hmnemonic hout hhalt hlegal => ?access⟩
  case halt =>
    have hop : op s.memwb.instruction = some .halt := hmnemonic ▸ op_of_decode hdecode
    have ends : (rowOf s.memwb.instruction).retire = .halt := by simp [rowOf, hop]
    rw [step_halt hs hop, exec_of_decode hdecode,
      perform_of_prologue hs (prologue_of_halt rfl ends)]
  case access =>
    have hop := op_of_decode hdecode
    have haccess : accessesMemory s.exmem.instruction := by
      obtain hm | hm := hmnemonic
      · exact .inl (hop.trans (congrArg some hm))
      · exact .inr (hop.trans (congrArg some hm))
    rw [step_dataFault hs hhalt hlegal haccess hout, exec_of_decode hdecode,
      perform_of_dataFault hs hhalt hlegal haccess hout]

/-- Settles O9, by the answers a step has. -/
theorem everySnapshotHasANextSnapshot : Obligations.EverySnapshotHasANextSnapshot :=
  exists_step_eq_next

end Sys2Proof.Machine

/-! SUPPORT. The whole tick of R107 in the terms of the step: its control signals are the machine's, and
past its tests it is the applied tick. -/

namespace Sys2Proof.Machine

/-! ### The signals of R107 -/

/-- A latch forwards to `r` as R126 writes it. -/
theorem forwards_iff (w : Word) (r : Reg) :
    forwards w r = true ↔
      (op w = some .add ∨ op w = some .nand ∨ op w = some .lw) ∧
        (if op w = some .lw then regB w else destField w) = r := by
  rw [forwards, Bool.and_eq_true, decide_eq_true_iff, destReg]
  simp only [isSource, Bool.or_eq_true, decide_eq_true_iff, or_assoc]

theorem Reference.forward_eq (s : State) (r : Reg) (raw : Word) :
    Reference.forward s r raw = Machine.forward s r raw := by
  simp only [Reference.forward, Machine.forward, forwards_iff]

theorem Reference.forward_regA (s : State) :
    Reference.forward s (regA s.idex.instruction) s.idex.readRegA = effA s :=
  Reference.forward_eq s _ _

theorem Reference.forward_regB (s : State) :
    Reference.forward s (regB s.idex.instruction) s.idex.readRegB = effB s :=
  Reference.forward_eq s _ _

/-- A branch is found taken where a BEQ's ALU result is 0 (R99, R136). -/
theorem branchTaken_iff_alu (s : State) :
    branchTaken s = true ↔
      op s.idex.instruction = some .beq ∧
        Reference.alu (op s.idex.instruction) (effA s) (effB s) s.idex.offset = 0#32 := by
  rw [← appliedTick_exmem_takenBranch, ExMem.takenBranch_iff, appliedTick_exmem]

/-! ### The tick of R107 -/

/-- Two snapshots that agree on every field are one. -/
theorem State.eq_of_fields {s t : State} (x : s.x = t.x) (pc : s.pc = t.pc) (imem : s.imem = t.imem)
    (dmem : s.dmem = t.dmem) (ifid : s.ifid = t.ifid) (idex : s.idex = t.idex)
    (exmem : s.exmem = t.exmem) (memwb : s.memwb = t.memwb) (wbend : s.wbend = t.wbend)
    (cycles : s.cycles = t.cycles) (status : s.status = t.status) : s = t := by
  cases s
  cases t
  rw [State.mk.injEq]
  exact ⟨x, pc, imem, dmem, ifid, idex, exmem, memwb, wbend, cycles, status⟩

theorem Reference.tick_of_halt {s : State} (h : op s.memwb.instruction = some .halt) :
    Reference.tick s = s.halt := if_pos h

theorem Reference.tick_of_illegal {s : State} (h : op s.memwb.instruction = none) :
    Reference.tick s = s.raise (.illegalOpcode s.memwb.instruction) := by
  have notHalt : op s.memwb.instruction ≠ some .halt := by simp [h]
  exact (if_neg notHalt).trans (if_pos h)

/-- An access in bounds, or none, does not meet the data bounds test of R107. -/
theorem noDataFault_of_inBounds {s : State}
    (hdata : accessesMemory s.exmem.instruction → inBounds s.exmem.aluResult = true) :
    ¬((op s.exmem.instruction = some .lw ∨ op s.exmem.instruction = some .sw) ∧
      ¬(0 ≤ s.exmem.aluResult.toInt ∧ s.exmem.aluResult.toInt ≤ 65535)) :=
  fun ⟨haccess, hout⟩ => hout ((inBounds_iff_toInt _).1 (hdata haccess))

section retires
variable {s : State} (hhalt : op s.memwb.instruction ≠ some .halt)
  (hlegal : op s.memwb.instruction ≠ none)
include hhalt hlegal

theorem Reference.tick_of_dataFault (haccess : accessesMemory s.exmem.instruction)
    (hout : inBounds s.exmem.aluResult = false) :
    Reference.tick s = s.raise (.dataAddressOutOfBounds s.exmem.aluResult) := by
  have outside := mt (inBounds_iff_toInt _).2 (ne_true_of_eq_false hout)
  exact (if_neg hhalt).trans ((if_neg hlegal).trans (if_pos ⟨haccess, outside⟩))

theorem Reference.tick_of_pcFault
    (hdata : accessesMemory s.exmem.instruction → inBounds s.exmem.aluResult = true)
    (hout : inBounds (fetchAddress s) = false) :
    Reference.tick s = s.raise (.pcOutOfBounds (fetchAddress s)) := by
  have outside := mt (inBounds_iff_toInt _).2 (ne_true_of_eq_false hout)
  simp only [Reference.tick, ← fetchAddress_eq, if_neg hhalt, if_neg hlegal,
    if_neg (noDataFault_of_inBounds hdata), if_pos outside, State.raise]

end retires

/-- Past its four tests the tick of R107 is the applied tick, field by field. -/
theorem Reference.tick_of_applies {s : State} (h : TickApplies s) :
    Reference.tick s = appliedTick s := by
  have noFetchFault := not_not.2 ((inBounds_iff_toInt _).1 h.fetchInBounds)
  simp only [Reference.tick, Reference.forward_regA, Reference.forward_regB, ← branchTaken_iff_alu,
    ← fetchAddress_eq, ← stall_iff, ← committed_by_opcode, if_neg h.notHalt, if_neg h.notIllegal,
    if_neg (noDataFault_of_inBounds h.dataInBounds), if_neg noFetchFault]
  refine State.eq_of_fields (appliedTick_x s).symm rfl rfl (appliedTick_dmem s).symm
    (appliedTick_ifid s).symm ?idex (appliedTick_exmem s).symm (appliedTick_memwb s).symm rfl rfl rfl
  rw [appliedTick_idex]
  cases branchTaken s <;> simp

end Sys2Proof.Machine

/-! The statement about the complete tick function. -/

namespace Sys2Proof.Machine

/-- Settles O8, case by case of a step: the tests of R107 come in the step's order, oldest instruction
first (R166). -/
theorem stepIsTheCompleteTickFunction : Obligations.StepIsTheCompleteTickFunction := by
  intro s hs
  obtain ⟨hstop, -⟩ | ⟨-, hhalt, e⟩ | ⟨-, hillegal, e⟩ | ⟨-, hhalt, hlegal, haccess, hout, e⟩ |
    ⟨-, hhalt, hlegal, hdata, hout, e⟩ | ⟨ha, e⟩ := step_cases s
  · exact absurd hs hstop
  · rw [e, Reference.tick_of_halt hhalt]
  · rw [e, Reference.tick_of_illegal hillegal]
  · rw [e, Reference.tick_of_dataFault hhalt hlegal haccess hout]
  · rw [e, Reference.tick_of_pcFault hhalt hlegal hdata hout]
  · rw [e, Reference.tick_of_applies ha]

end Sys2Proof.Machine

/-! SUPPORT. The law of a tick that stalls: the bubble, and what the hazard unit holds. -/

namespace Sys2Proof.Machine

/-- A stall puts a bubble into ID/EX, rolls the pc back to the fetch address and holds IF/ID (R118). -/
theorem appliedTick_bubbled_of_stall {s : State} (h : stall s = true) :
    (appliedTick s).idex.instruction = noopWord ∧ (appliedTick s).pc = fetchAddress s ∧
      (appliedTick s).ifid = s.ifid := by
  have notTaken := branchTaken_eq_false_of_stall h
  refine ⟨by rw [appliedTick_idex, h]; rfl, by rw [appliedTick_pc, if_pos h], ?_⟩
  simp [appliedTick_ifid, h, notTaken]

/-- Behind the bubble nothing stalls: it is no LW (R119). -/
theorem stall_appliedTick_of_stall {s : State} (h : stall s = true) :
    stall (appliedTick s) = false := by
  obtain ⟨bubble, -⟩ := appliedTick_bubbled_of_stall h
  exact stall_eq_false_of_ne_lw (by simp [bubble])

end Sys2Proof.Machine

/-! The statements about the hazard unit (spec/45_hazard_unit.md). -/

namespace Sys2Proof.Machine

/-- Settles O28: the condition of R116 is a stall; the fields of ID/EX and EX/MEM it does not name are
those of every applied tick. -/
theorem loadUseStallsForOneBubble : Obligations.LoadUseStallsForOneBubble := by
  intro s ha hlw hmatch
  obtain ⟨bubble, rolledBack, held⟩ := appliedTick_bubbled_of_stall ((stall_iff s).2 ⟨hlw, hmatch⟩)
  exact ⟨appliedTick s, step_applies ha, bubble, rfl, rfl, rfl, rfl, rolledBack, held, rfl⟩

/-- Settles O29: without the condition of R116 there is no stall, so nothing holds the IF/ID occupant or
the pc. -/
theorem nothingElseStalls : Obligations.NothingElseStalls := by
  intro s ha notTaken noMatch
  have noStall : stall s = false := eq_false_of_ne_true (mt (stall_iff s).1 noMatch)
  exact ⟨appliedTick s, step_applies ha, (appliedTick_promoted noStall notTaken).2,
    by simp [appliedTick_pc, noStall]⟩

/-- Settles O30: the tick after a stall has the bubble in ID/EX. -/
theorem noTwoConsecutiveStalls : Obligations.NoTwoConsecutiveStalls := fun s ha hstall =>
  ⟨appliedTick s, step_applies ha, stall_appliedTick_of_stall hstall⟩

end Sys2Proof.Machine

/-! SUPPORT. Laws of the forwarding unit: what a source is, opcode by opcode, and the value of each
tier. -/

namespace Sys2Proof.Machine

/-- The forwarding sources by opcode (R126): ADD and NAND for `destField`, LW for `regB`, no other. -/
theorem forwards_iff_by_opcode (w : Word) (r : Reg) :
    forwards w r = true ↔
      ((op w = some .add ∨ op w = some .nand) ∧ destField w = r) ∨
        (op w = some .lw ∧ regB w = r) := by
  rw [forwards_iff]
  by_cases hlw : op w = some .lw
  · simp [hlw]
  · simp [hlw]

section
variable {s : State} {r : Reg} {raw : Word}

theorem forward_of_exmem (h : forwards s.exmem.instruction r = true) :
    forward s r raw = s.exmem.aluResult := if_pos h

theorem forward_of_memwb (hexmem : ¬forwards s.exmem.instruction r = true)
    (h : forwards s.memwb.instruction r = true) : forward s r raw = s.memwb.writeData := by
  rw [forward, if_neg hexmem, if_pos h]

theorem forward_of_wbend (hexmem : ¬forwards s.exmem.instruction r = true)
    (hmemwb : ¬forwards s.memwb.instruction r = true)
    (h : forwards s.wbend.instruction r = true) : forward s r raw = s.wbend.writeData := by
  rw [forward, if_neg hexmem, if_neg hmemwb, if_pos h]

theorem forward_of_no_source (hexmem : ¬forwards s.exmem.instruction r = true)
    (hmemwb : ¬forwards s.memwb.instruction r = true)
    (hwbend : ¬forwards s.wbend.instruction r = true) : forward s r raw = raw := by
  rw [forward, if_neg hexmem, if_neg hmemwb, if_neg hwbend]

end

end Sys2Proof.Machine

/-! The statements about the forwarding unit (spec/46_forwarding_unit.md). -/

namespace Sys2Proof.Machine

/-- Settles O37: the invariant's load-use and operand clauses are what forwarding needs of each of the
two operands. -/
theorem forwardedOperandsAreInProgramOrder : Obligations.ForwardedOperandsAreInProgramOrder :=
  fun _ h hn => ⟨h.effA_eq hn, h.effB_eq hn⟩

/-- Settles O22: a source of the statement is a latch that forwards, and each clause is one tier of the
select function. -/
theorem forwardingTakesTheNearestSource : Obligations.ForwardingTakesTheNearestSource := by
  intro s r raw source
  have source_iff (w : Word) : source w ↔ forwards w r = true := (forwards_iff_by_opcode w r).symm
  simp only [source_iff]
  exact ⟨forward_of_exmem, forward_of_memwb, forward_of_wbend, forward_of_no_source, rfl, rfl⟩

end Sys2Proof.Machine

/-! SUPPORT. Laws of the tick behind a squash: a NOOP in ID/EX raises neither control signal, and such a
tick fetches and promotes (spec/47_branch_squash.md). -/

namespace Sys2Proof.Machine

/-- A NOOP in ID/EX is neither a load to wait for nor a branch (R116, R136). -/
theorem no_stall_no_branchTaken_of_noop {s : State} (h : op s.idex.instruction = some .noop) :
    stall s = false ∧ branchTaken s = false :=
  ⟨stall_eq_false_of_ne_lw (by simp [h]),
    eq_false_of_ne_true (mt (branchTaken_iff s).1 (by simp [h]))⟩

/-- With neither a stall nor a taken branch IF/ID and the pc are those of the fetch (R93, R94). -/
theorem appliedTick_fetched {s : State} (hstall : stall s = false) (htaken : branchTaken s = false) :
    (appliedTick s).ifid =
        { instruction := s.imem.read (address (fetchAddress s)), pcPlus1 := fetchAddress s + 1#32 } ∧
      (appliedTick s).pc = fetchAddress s + 1#32 := by
  simp [appliedTick_ifid, appliedTick_pc, hstall, htaken]

end Sys2Proof.Machine

/-! The statement about the redirect behind a taken branch (spec/47_branch_squash.md). -/

namespace Sys2Proof.Machine

/-- Settles O32: the invariant has NOOPs behind the taken BEQ, so nothing overrides the fetch, which is
at the branch target, and the two NOOPs move on. -/
theorem takenBranchRedirectsTheFetch : Obligations.TakenBranchRedirectsTheFetch := by
  intro s hinv ha hbeq hzero
  have taken := (ExMem.takenBranch_iff s.exmem).2 ⟨hbeq, hzero⟩
  have target : fetchAddress s = s.exmem.branchTarget := if_pos taken
  obtain ⟨noopIdEx, noopIfId⟩ := hinv.squashed taken
  have noop : op s.idex.instruction = some .noop := by rw [noopIdEx, op_noopWord]
  obtain ⟨noStall, notTaken⟩ := no_stall_no_branchTaken_of_noop noop
  obtain ⟨ifid, pc⟩ := appliedTick_fetched noStall notTaken
  rw [target] at ifid pc
  have promoted := (appliedTick_promoted noStall notTaken).2
  exact ⟨appliedTick s, step_applies ha, congrArg IfId.instruction ifid, congrArg IfId.pcPlus1 ifid, pc,
    promoted.trans noopIfId, noopIdEx⟩

end Sys2Proof.Machine

/-! SUPPORT. Laws of how a run ends: the status a step answers, the part of an access out of bounds, and
the report of a stopped run. -/

namespace Sys2Proof.Machine

/-- A step that leaves a running machine faulted has raised that fault and changed nothing else
(R167). -/
theorem eq_raise_of_step_faulted {s t : State} {f : Fault} (hs : s.status = .running)
    (hst : step s = .next t) (hf : t.status = .faulted f) : t = s.raise f := by
  obtain ⟨hstop, -⟩ | ⟨-, rfl | ⟨g, rfl⟩⟩ | ⟨-, rfl⟩ := step_eq_next hst
  · exact absurd hs hstop
  · cases hf
  · cases hf
    rfl
  · cases hf

/-- A fault that a step of a running machine raises, by its kind: who raised it and with what value
(R161 to R163). -/
theorem step_raise_cases {s : State} {f : Fault} (hs : s.status = .running)
    (hst : step s = .next (s.raise f)) :
    (op s.memwb.instruction = none ∧ f = .illegalOpcode s.memwb.instruction) ∨
    (accessesMemory s.exmem.instruction ∧ inBounds s.exmem.aluResult = false ∧
      f = .dataAddressOutOfBounds s.exmem.aluResult) ∨
    (inBounds (fetchAddress s) = false ∧ f = .pcOutOfBounds (fetchAddress s)) := by
  have raised {t : State} (e : step s = .next t) : t.status = .faulted f := by
    cases e.symm.trans hst
    rfl
  obtain ⟨hstop, -⟩ | ⟨-, -, e⟩ | ⟨-, hillegal, e⟩ | ⟨-, -, -, haccess, hout, e⟩ |
    ⟨-, -, -, -, hout, e⟩ | ⟨-, e⟩ := step_cases s
  · exact absurd hs hstop
  · cases raised e
  · cases raised e
    exact .inl ⟨hillegal, rfl⟩
  · cases raised e
    exact .inr (.inl ⟨haccess, hout, rfl⟩)
  · cases raised e
    exact .inr (.inr ⟨hout, rfl⟩)
  · cases raised e

/-- A row that neither halts nor faults at retirement passes the prologue (R92). -/
theorem prologue_of_retires {a : StageActions} (hhalt : a.retire ≠ .halt)
    (hillegal : a.retire ≠ .illegal) (s : State) : prologue a s = none := by
  unfold prologue
  split
  · split
    · exact absurd ‹_› hhalt
    · exact absurd ‹_› hillegal
    · rfl
  · rfl

/-- An LW or an SW with its address out of bounds has the data fault as its part, whatever stands in
MEM/WB: its own row neither halts nor faults there (R104, R163). -/
theorem AccessWord.perform_of_outOfBounds {w : Word} {a b : Reg} {o : BitVec 16} {s : State}
    (h : AccessWord w a b o) (hs : s.status = .running) (hw : s.exmem.instruction = w)
    (hout : inBounds s.exmem.aluResult = false) :
    perform (rowOf w) s = .next (s.raise (.dataAddressOutOfBounds s.exmem.aluResult)) := by
  have accesses : (rowOf w).memory ≠ .none := by
    rw [ne_eq, rowOf_memory_eq_none_iff, not_not]
    exact h.opcode
  have goesOn := prologue_of_retires h.rowOf_retire_ne_halt h.rowOf_retire_ne_illegal s
  have faults : dataFault (rowOf w) s =
      some (s.raise (.dataAddressOutOfBounds s.exmem.aluResult)) := if_pos ⟨hw, accesses, hout⟩
  rw [perform, if_pos hs, goesOn, faults]

theorem report_of_not_halted (image : List Word) {s : State} (h : s.status ≠ .halted) :
    report image s = none := if_neg h

/-- The words a report lists: the image's line count or all (R150, D32). -/
theorem reportLength_cases (which : ReportWords) (image : List Word) :
    reportLength which image = image.length ∨ reportLength which image = 65536 := by
  cases which with
  | numMemory => exact .inl rfl
  | all => exact .inr rfl

end Sys2Proof.Machine

/-! The statements about how a run ends (spec/48_run_loop.md, spec/60_exceptions.md). -/

namespace Sys2Proof.Machine

/-- Settles O12: the first step halts, and a halted machine holds its state. -/
theorem haltInMemWbEndsTheRun : Obligations.HaltInMemWbEndsTheRun := by
  intro s k hs hhalt
  have ends := step_halt hs hhalt
  have stopped : s.halt.status ≠ .running := nofun
  refine ⟨ends, ?_⟩
  rw [ticks_succ ends]
  exact ticks_of_step_self (step_stopped stopped) k

/-- Settles O11: the cases of a step that end the run, in the order in which it tests for them. -/
theorem oldestInstructionsFaultIsReported : Obligations.OldestInstructionsFaultIsReported :=
  fun _ hs => ⟨step_halt hs, step_illegal hs, step_dataFault hs, step_pcFault hs⟩

/-- Settles O13: a faulted machine has stopped, so it holds its state and has no report. -/
theorem faultFreezesTheSnapshot : Obligations.FaultFreezesTheSnapshot := by
  intro s t f hs hst hf
  have stopped : t.status ≠ .running := by simp [hf]
  have notHalted : t.status ≠ .halted := by simp [hf]
  exact ⟨eq_raise_of_step_faulted hs hst hf, ticks_of_step_self (step_stopped stopped),
    fun image => report_of_not_halted image notHalted⟩

/-- Settles O14: each fault by the case of a step that raises it. -/
theorem eachFaultHasItsCause : Obligations.EachFaultHasItsCause := by
  intro s t hs hst
  have causes {f : Fault} (hf : t.status = .faulted f) :=
    step_raise_cases hs (eq_raise_of_step_faulted hs hst hf ▸ hst)
  refine ⟨fun w => ⟨fun hf => ?illegal, fun ⟨hw, hillegal⟩ => ?raisesIllegal⟩, fun a hf => ?data,
    fun a hf => ?fetch⟩
  case illegal =>
    obtain ⟨hop, e⟩ | ⟨-, -, e⟩ | ⟨-, e⟩ := causes hf
    all_goals cases e
    exact ⟨rfl, (op_eq_none_iff _).1 hop⟩
  case raisesIllegal =>
    subst hw
    cases (step_illegal hs ((op_eq_none_iff _).2 hillegal)).symm.trans hst
    rfl
  case data =>
    obtain ⟨-, e⟩ | ⟨haccess, hout, e⟩ | ⟨-, e⟩ := causes hf
    all_goals cases e
    exact ⟨haccess, rfl, (inBounds_eq_false_iff _).1 hout⟩
  case fetch =>
    obtain ⟨-, e⟩ | ⟨-, -, e⟩ | ⟨hout, e⟩ := causes hf
    all_goals cases e
    exact ⟨fetchAddress_eq s, (inBounds_eq_false_iff _).1 hout⟩

/-- Settles O54: an LW's or an SW's part is its row of R108 performed, which its own access faults. -/
theorem loadAndStoreTrapOutOfBounds : Obligations.LoadAndStoreTrapOutOfBounds := by
  intro i s hi hs hw hout
  rw [← inBounds_eq_false_iff] at hout
  rw [exec_eq_perform]
  cases i with
  | lw a b o => exact (accessWord_lw a b o).perform_of_outOfBounds hs hw hout
  | sw a b o => exact (accessWord_sw a b o).perform_of_outOfBounds hs hw hout
  | add | nand | beq | jalr | halt | noop => simp [Instr.mnemonic] at hi

/-- Settles O58: `report` by the status it reads, and its length by the open parameter. -/
theorem onlyAHaltedRunIsReported : Obligations.OnlyAHaltedRunIsReported := by
  intro image s
  refine ⟨report_of_not_halted image, fun hs => ⟨_, if_pos hs, rfl, rfl, ?length, fun a ha => ?words⟩⟩
  case length =>
    simpa using reportLength_cases Config.reportWords image
  case words =>
    have listed : a < reportLength Config.reportWords image := by simpa using ha
    simp [listed]

/-- Settles O34: `bootState_invariant`. -/
theorem invariantHoldsAtBoot : Obligations.InvariantHoldsAtBoot := fun _ => bootState_invariant

end Sys2Proof.Machine

/-! SUPPORT. Laws of the loader: which lists of lines it accepts, and the Words it makes of them (R152,
R153). -/

namespace Sys2Proof.Machine

/-- The Word of a line: the two's-complement value of its integer (R152). A line without one is never
loaded (`loadLines_eq_ok_iff`). -/
def lineWord : ImageLine → Word
  | none => 0#32
  | some v => BitVec.ofInt 32 v

@[simp] theorem lineWord_some (v : Int) : lineWord (some v) = BitVec.ofInt 32 v := rfl

/-- The loader from address `a` up accepts exactly well-formed lines that fit, and answers their Words. -/
theorem loadLines_eq_ok_iff (lines : List ImageLine) {a : Nat} (ha : a ≤ Config.memWords)
    (words : List Word) :
    loadLines a lines = .ok words ↔
      lines.all wellFormedLine = true ∧ a + lines.length ≤ Config.memWords ∧
        lines.map lineWord = words := by
  induction lines generalizing a words with
  | nil => simp [loadLines, ha]
  | cons line rest ih =>
    unfold loadLines
    split
    case isTrue hfull =>
      simp only [List.length_cons, reduceCtorEq, false_iff]
      omega
    case isFalse hroom =>
      cases line with
      | none => simp [wellFormedLine]
      | some v =>
        cases hv : wellFormedLine (some v) with
        | false => simp [hv]
        | true =>
          have tail := ih (a := a + 1) (by omega)
          cases hrest : loadLines (a + 1) rest with
          | ok tailWords =>
            obtain ⟨hall, hfits, rfl⟩ := (tail tailWords).1 hrest
            have fits : a + (rest.length + 1) ≤ Config.memWords := by omega
            simp [hv, hall, fits]
          | error e =>
            simp only [hv, List.all_cons, List.length_cons, Bool.true_and, if_true, reduceCtorEq,
              false_iff]
            rintro ⟨hall, hfits, -⟩
            have accepted := (tail (rest.map lineWord)).2 ⟨hall, by omega, rfl⟩
            simp [hrest] at accepted

/-- The loader accepts exactly the well-formed images, and answers their Words. -/
theorem loadImage_eq_ok_iff (lines : List ImageLine) (words : List Word) :
    loadImage lines = .ok words ↔
      wellFormedImage lines = true ∧ lines.map lineWord = words := by
  rw [loadImage, loadLines_eq_ok_iff lines (Nat.zero_le _), wellFormedImage, Bool.and_eq_true,
    decide_eq_true_iff, Nat.zero_add, and_assoc]

theorem exists_loadImage_eq_ok_iff (lines : List ImageLine) :
    (∃ words, loadImage lines = .ok words) ↔ wellFormedImage lines = true := by
  simp [loadImage_eq_ok_iff]

theorem exists_boot_eq_ok_iff (lines : List ImageLine) :
    (∃ s, boot lines = .ok s) ↔ wellFormedImage lines = true := by
  rw [← exists_loadImage_eq_ok_iff]
  simp only [boot_eq_ok_iff]
  constructor
  · rintro ⟨-, image, h, -⟩
    exact ⟨image, h⟩
  · rintro ⟨image, h⟩
    exact ⟨_, image, h, rfl⟩

/-- Both memories of a reset snapshot are the image followed by zeros (R28, R152). -/
theorem bootState_read (image : List Word) (a : Nat) :
    (bootState image).imem.read a = image.getD a 0#32 ∧
      (bootState image).dmem.read a = image.getD a 0#32 :=
  ⟨imageMemory_read image a, imageMemory_read image a⟩

end Sys2Proof.Machine

/-! The statement about the loader. -/

namespace Sys2Proof.Machine

/-- Settles O57: the accepted image is the list of the lines' Words, which both memories read back. -/
theorem loaderAcceptsExactlyWellFormedImages :
    Obligations.LoaderAcceptsExactlyWellFormedImages := by
  intro lines
  refine ⟨exists_loadImage_eq_ok_iff lines, exists_boot_eq_ok_iff lines, fun words hload => ?_⟩
  have booted := (boot_eq_ok_iff lines _).2 ⟨words, hload, rfl⟩
  obtain ⟨-, rfl⟩ := (loadImage_eq_ok_iff lines words).1 hload
  have length : (lines.map lineWord).length = lines.length := List.length_map ..
  refine ⟨length, length, booted, fun a v hline => ?line, fun a hbeyond => ?beyond⟩
  case line =>
    have word : (lines.map lineWord)[a]? = some (BitVec.ofInt 32 v) := by simp [hline]
    obtain ⟨himem, hdmem⟩ := bootState_read (lines.map lineWord) a
    rw [List.getD_eq_getElem?_getD, word] at himem hdmem
    exact ⟨word, himem, hdmem⟩
  case beyond =>
    have none : (lines.map lineWord)[a]? = none := by simpa using hbeyond
    obtain ⟨himem, hdmem⟩ := bootState_read (lines.map lineWord) a
    rw [List.getD_eq_getElem?_getD, none] at himem hdmem
    exact ⟨himem, hdmem⟩

end Sys2Proof.Machine

/-! SUPPORT. Laws of what a run comes to: a snapshot that a run reaches, and a run without a fetch out of
bounds. -/

namespace Sys2Proof.Machine

/-- Some run from `s` comes to a snapshot with property `P`. -/
def Reaches (s : State) (P : State → Prop) : Prop := ∃ k t, ticks k s = .next t ∧ P t

theorem Reaches.now {s : State} {P : State → Prop} (h : P s) : Reaches s P := ⟨0, s, rfl, h⟩

theorem Reaches.of_step {s t : State} {P : State → Prop} (hst : step s = .next t)
    (h : Reaches t P) : Reaches s P := by
  obtain ⟨k, u, run, hu⟩ := h
  exact ⟨k + 1, u, (ticks_succ hst k).trans run, hu⟩

/-- No run from `s` raises PcOutOfBounds, the side condition of R195. -/
def NeverFaultsInFetch (s : State) : Prop :=
  ∀ k t a, ticks k s = .next t → t.status ≠ .faulted (.pcOutOfBounds a)

theorem NeverFaultsInFetch.of_step {s t : State} (h : NeverFaultsInFetch s)
    (hst : step s = .next t) : NeverFaultsInFetch t := fun k u a run =>
  h (k + 1) u a ((ticks_succ hst k).trans run)

/-- The instruction word retires: it is no HALT and no illegal word (R92). -/
def Retires (w : Word) : Prop := op w ≠ some .halt ∧ op w ≠ none

/-- Where nothing in MEM/WB or EX/MEM ends the run and no fetch ever faults, the tick is applied. -/
theorem NeverFaultsInFetch.applies {s : State} (h : NeverFaultsInFetch s) (hs : s.status = .running)
    (hm : Retires s.memwb.instruction)
    (hk : accessesMemory s.exmem.instruction → inBounds s.exmem.aluResult = true) :
    TickApplies s := by
  obtain ⟨notHalt, notIllegal⟩ := hm
  refine ⟨hs, notHalt, notIllegal, hk, ?_⟩
  by_contra hout
  have faults := step_pcFault hs notHalt notIllegal hk (eq_false_of_ne_true hout)
  exact h 1 _ _ (ticks_succ faults 0) rfl

end Sys2Proof.Machine

/-! SUPPORT. Where in the pipeline the next instruction in program order stands: in ID/EX, in IF/ID
behind a bubble, or at the fetch address behind two. Addresses are the integers of the sequential
reference (R195), a Word read as signed. -/

namespace Sys2Proof.Machine

/-! ### Addresses as integers -/

theorem toInt_add_one_of_inBounds {a : Word} (h : inBounds a = true) :
    (a + 1#32).toInt = a.toInt + 1 := by
  obtain ⟨lower, upper⟩ := (inBounds_iff_toInt a).1 h
  rw [BitVec.toInt_add, show (1#32).toInt = 1 from rfl]
  exact Int.bmod_eq_of_le (by omega) (by omega)

theorem address_eq_toNat_toInt {a : Word} (h : inBounds a = true) : address a = a.toInt.toNat := by
  rw [inBounds_iff] at h
  rw [address, BitVec.toInt_eq_toNat_of_lt (by omega), Int.toNat_natCast]

/-- A branch target is the sum of the integers: nothing wraps (R80, R195). -/
theorem toInt_add_signExtend {p : Word} (o : BitVec 16) (lower : 0 ≤ p.toInt)
    (upper : p.toInt ≤ 65536) : (p + o.signExtend 32).toInt = p.toInt + o.toInt := by
  have least := o.le_toInt
  have greatest := o.toInt_lt
  rw [BitVec.toInt_add, BitVec.toInt_signExtend_of_le (by decide)]
  exact Int.bmod_eq_of_le (by omega) (by omega)

/-! ### The next instruction -/

/-- A latch holds the word at address `a` of instruction memory, and the address behind it. -/
structure FetchedFrom (imem : Memory) (instruction pcPlus1 : Word) (a : Int) : Prop where
  lower : 0 ≤ a
  upper : a ≤ 65535
  word : instruction = imem.read a.toNat
  next : pcPlus1.toInt = a + 1

/-- IF/ID holds the instruction at `a`, and the fetch goes on behind it. -/
structure IfIdAt (s : State) (a : Int) : Prop where
  latch : FetchedFrom s.imem s.ifid.instruction s.ifid.pcPlus1 a
  fetch : (fetchAddress s).toInt = a + 1

/-- ID/EX holds the instruction at `a`, and IF/ID the one behind it. -/
structure IdExAt (s : State) (a : Int) : Prop where
  latch : FetchedFrom s.imem s.idex.instruction s.idex.pcPlus1 a
  behind : IfIdAt s (a + 1)

/-- The next instruction in program order is the one at `a`; only bubbles stand before it. -/
def NextAt (s : State) (a : Int) : Prop :=
  IdExAt s a ∨
    (op s.idex.instruction = some .noop ∧
      (IfIdAt s a ∨ (op s.ifid.instruction = some .noop ∧ (fetchAddress s).toInt = a)))

section
variable {s : State} (ha : TickApplies s)
include ha

/-- A tick that neither stalls nor branches fetches the instruction at the fetch address. -/
theorem ifIdAt_appliedTick (hstall : stall s = false) (htaken : branchTaken s = false) :
    IfIdAt (appliedTick s) (fetchAddress s).toInt := by
  obtain ⟨lower, upper⟩ := (inBounds_iff_toInt _).1 ha.fetchInBounds
  obtain ⟨ifid, -⟩ := appliedTick_fetched hstall htaken
  obtain ⟨next, -⟩ := appliedTick_promoted hstall htaken
  refine ⟨⟨lower, upper, ?word, ?pcPlus1⟩, ?fetch⟩
  case word => rw [ifid, ← address_eq_toNat_toInt ha.fetchInBounds]; rfl
  case pcPlus1 => rw [ifid, toInt_add_one_of_inBounds ha.fetchInBounds]
  case fetch => rw [next, toInt_add_one_of_inBounds ha.fetchInBounds]

/-- Such a tick promotes the instruction in IF/ID. -/
theorem IfIdAt.promoted {a : Int} (h : IfIdAt s a) (hstall : stall s = false)
    (htaken : branchTaken s = false) : IdExAt (appliedTick s) a := by
  obtain ⟨-, promoted⟩ := appliedTick_promoted hstall htaken
  refine ⟨?latch, h.fetch ▸ ifIdAt_appliedTick ha hstall htaken⟩
  rw [promoted]
  exact h.latch

/-- Behind an instruction that does not branch the next one is that at the following address: promoted,
or held in IF/ID by a stall. -/
theorem IdExAt.nextAt_of_not_taken {a : Int} (h : IdExAt s a) (htaken : branchTaken s = false) :
    NextAt (appliedTick s) (a + 1) := by
  cases hstall : stall s with
  | false => exact .inl (h.behind.promoted ha hstall htaken)
  | true =>
    obtain ⟨bubble, rolledBack, held⟩ := appliedTick_bubbled_of_stall hstall
    have refetch : fetchAddress (appliedTick s) = fetchAddress s := by
      rw [fetchAddress, appliedTick_exmem_takenBranch, htaken, if_neg Bool.false_ne_true, rolledBack]
    refine .inr ⟨by rw [bubble, op_noopWord], .inl ⟨?latch, ?fetch⟩⟩
    case latch =>
      rw [held]
      exact h.behind.latch
    case fetch => rw [refetch, h.behind.fetch]

end

/-- Behind a BEQ found taken the next instruction is the one at its target, not yet fetched. -/
theorem IdExAt.nextAt_of_taken {s : State} {a : Int} (h : IdExAt s a) (htaken : branchTaken s = true)
    {o : BitVec 16} (hoffset : s.idex.offset = o.signExtend 32) :
    NextAt (appliedTick s) (a + 1 + o.toInt) := by
  obtain ⟨squashedIdEx, squashedIfId⟩ := appliedTick_squashed_of_taken htaken
  have lower := h.latch.lower
  have upper := h.latch.upper
  have next := h.latch.next
  refine .inr ⟨by rw [squashedIdEx, op_noopWord], .inr ⟨by rw [squashedIfId, op_noopWord], ?_⟩⟩
  rw [fetchAddress_appliedTick_of_taken htaken, hoffset,
    toInt_add_signExtend o (by omega) (by omega), next]

end Sys2Proof.Machine

/-! SUPPORT. The simulation of the sequential reference by the pipeline (R195): the reference state is
the pipeline's in program order, and one reference step is the tick that executes the instruction. -/

namespace Sys2Proof.Machine

/-- The snapshot `s` of a run of the image memory `imem` stands for the reference state `q`: `q` has
executed all that is past ID/EX, and nothing of that ends the run. -/
structure Simulates (imem : Memory) (s : State) (q : SeqState) : Prop where
  running : s.status = .running
  invariant : PipelineInvariant s
  image : s.imem = imem
  noFetchFault : NeverFaultsInFetch s
  regs : programOrderRegs s = q.x
  mem : programOrderMem s = q.mem
  next : NextAt s q.pc
  retires : Retires s.memwb.instruction
  passes : Retires s.exmem.instruction
  access : accessesMemory s.exmem.instruction → inBounds s.exmem.aluResult = true

namespace Simulates
variable {imem : Memory} {s : State} {q : SeqState}

theorem applies (h : Simulates imem s q) : TickApplies s :=
  h.noFetchFault.applies h.running h.retires h.access

theorem step_eq (h : Simulates imem s q) : step s = .next (appliedTick s) := step_applies h.applies

/-- A tick carries the simulation on to `q'` where the instruction executed has `q'`'s effect and does
not end the run. -/
theorem of_tick {q' : SeqState} (h : Simulates imem s q)
    (regs : programOrderRegs (appliedTick s) = q'.x)
    (mem : programOrderMem (appliedTick s) = q'.mem)
    (next : NextAt (appliedTick s) q'.pc)
    (passes : Retires s.idex.instruction)
    (access : accessesMemory s.idex.instruction →
      inBounds (appliedTick s).exmem.aluResult = true) :
    Simulates imem (appliedTick s) q' where
  running := rfl
  invariant := h.invariant.of_appliedTick h.applies
  image := h.image
  noFetchFault := h.noFetchFault.of_step h.step_eq
  regs := regs
  mem := mem
  next := next
  retires := h.passes
  passes := passes
  access := access

/-- An instruction without a result, a store or an access that retires changes only the place of the
next one. -/
theorem of_inert_tick (h : Simulates imem s q) {a : Int} (noResult : isSource s.idex.instruction = false)
    (noAccess : ¬accessesMemory s.idex.instruction) (passes : Retires s.idex.instruction)
    (next : NextAt (appliedTick s) a) : Simulates imem (appliedTick s) { q with pc := a } :=
  h.of_tick ((programOrderRegs_appliedTick_of_not_isSource noResult).trans h.regs)
    ((programOrderMem_appliedTick fun hsw => noAccess (.inr hsw)).trans h.mem) next passes
    fun haccess => absurd haccess noAccess

/-- A NOOP executed, or a bubble, is such an instruction. -/
theorem of_noop_tick (h : Simulates imem s q) {a : Int} (noop : op s.idex.instruction = some .noop)
    (next : NextAt (appliedTick s) a) : Simulates imem (appliedTick s) { q with pc := a } :=
  h.of_inert_tick (by simp [isSource, noop]) (by simp [accessesMemory, noop])
    (by simp [Retires, noop]) next

/-- Behind its bubbles the next instruction comes to ID/EX. -/
theorem reaches_of_idExAt {P : State → Prop} (h : Simulates imem s q)
    (full : ∀ t, Simulates imem t q → IdExAt t q.pc → Reaches t P) : Reaches s P := by
  have fromIfId {t : State} (ht : Simulates imem t q) (bubble : op t.idex.instruction = some .noop)
      (hat : IfIdAt t q.pc) : Reaches t P := by
    obtain ⟨noStall, notTaken⟩ := no_stall_no_branchTaken_of_noop bubble
    have filled := hat.promoted ht.applies noStall notTaken
    exact .of_step ht.step_eq (full _ (ht.of_noop_tick bubble (.inl filled)) filled)
  obtain inIdEx | ⟨bubble, inIfId | ⟨bubble', fetch⟩⟩ := h.next
  · exact full s h inIdEx
  · exact fromIfId h bubble inIfId
  · obtain ⟨noStall, notTaken⟩ := no_stall_no_branchTaken_of_noop bubble
    have fetched := fetch ▸ ifIdAt_appliedTick h.applies noStall notTaken
    have bubble'' : op (appliedTick s).idex.instruction = some .noop := by
      rw [(appliedTick_promoted noStall notTaken).2, bubble']
    exact .of_step h.step_eq
      (fromIfId (h.of_noop_tick bubble (.inr ⟨bubble'', .inl fetched⟩)) bubble'' fetched)

end Simulates

theorem fetchAddress_bootState (image : List Word) : fetchAddress (bootState image) = 0#32 := by
  simp [fetchAddress_eq, bootState, State.reset]

/-- The reset snapshot of an image simulates the initial reference state, its first instruction not yet
fetched. -/
theorem simulates_bootState {image : List Word} (hfits : image.length ≤ 65536)
    (hfetch : NeverFaultsInFetch (bootState image)) :
    Simulates (imageMemory image) (bootState image) (seqInit image) where
  running := rfl
  invariant := bootState_invariant hfits
  image := rfl
  noFetchFault := hfetch
  regs := by simp [programOrderRegs, committed, isSource, bootState, State.reset, seqInit]
  mem := by simp [programOrderMem, bootState, State.reset, seqInit]
  next := .inr ⟨op_noopWord, .inr ⟨op_noopWord, by rw [fetchAddress_bootState]; rfl⟩⟩
  retires := by simp [Retires, bootState, State.reset]
  passes := by simp [Retires, bootState, State.reset]
  access := by simp [accessesMemory, bootState, State.reset]

end Sys2Proof.Machine

/-! SUPPORT. One reference step and the pipeline: what the tick that executes each instruction makes of
the simulation, and how a run ends where the reference stops (R195). -/

namespace Sys2Proof.Machine

/-- The commit of a word without a register result changes nothing (R105). -/
theorem committed_of_not_isSource (x : Registers) {w : Word} (v : Word) (h : isSource w = false) :
    committed x w v = x := by
  simp [committed, h]

/-! ### What is claimed of the pipeline -/

/-- The snapshot `t` is the end of a run that the reference ends with `o`: the same registers and data
memory at a HALT, the same cause and value at a fault. Of a reference run that has not stopped, or that
has left the property by a JALR, nothing is claimed. -/
def EndsAs : SeqOutcome → State → Prop
  | .halted q, t => t.status = .halted ∧ t.x = q.x ∧ t.dmem = q.mem
  | .faulted f, t => t.status = .faulted f
  | .next _, _ => True
  | .excluded, _ => True

/-- The pipeline follows one reference step with outcome `o` from `s`, whose ID/EX holds the
instruction: by the tick that executes it where the reference goes on, by the end of the run where it
stops. -/
def Follows (imem : Memory) (s : State) : SeqOutcome → Prop
  | .next q => Simulates imem (appliedTick s) q
  | .halted q => Reaches s (EndsAs (.halted q))
  | .faulted f => Reaches s (EndsAs (.faulted f))
  | .excluded => True

/-! ### The reference step -/

section
variable {imem : Memory} {q : SeqState} (lower : 0 ≤ q.pc) (upper : q.pc ≤ 65535)
include lower upper

theorem seqStep_of_decode {i : Instr} (h : decode (imem.read q.pc.toNat) = .ok i) :
    seqStep imem q = seqExec i q := by
  have fetched : 0 ≤ q.pc ∧ q.pc < Config.memWords := ⟨lower, Int.lt_of_le_of_lt upper (by decide)⟩
  rw [seqStep, if_pos fetched, h]

theorem seqStep_of_illegal (h : op (imem.read q.pc.toNat) = none) :
    seqStep imem q = .faulted (.illegalOpcode (imem.read q.pc.toNat)) := by
  have fetched : 0 ≤ q.pc ∧ q.pc < Config.memWords := ⟨lower, Int.lt_of_le_of_lt upper (by decide)⟩
  rw [seqStep, if_pos fetched, (decode_eq_illegalOpcode_iff _).2 h]

end

namespace Simulates
variable {imem : Memory} {s : State} {q : SeqState} {w : Word} {a b d : Reg} {o : BitVec 16}

/-! ### The instructions that go on -/

/-- The tick that executes an ADD or a NAND is the reference step. -/
theorem arith_tick (h : Simulates imem s q) (hat : IdExAt s q.pc)
    {result : Word → Word → Word} (word : ArithWord w a b d result) (hw : s.idex.instruction = w) :
    Simulates imem (appliedTick s)
      { q with x := writeReg q.x d (result (readReg q.x a) (readReg q.x b)), pc := q.pc + 1 } := by
  obtain ⟨notStore, notLoad, notTaken, passes⟩ : op s.idex.instruction ≠ some .sw ∧
      op s.idex.instruction ≠ some .lw ∧ branchTaken s = false ∧ Retires s.idex.instruction := by
    obtain hop | hop := word.opcode <;> simp [Retires, branchTaken, hw, hop]
  refine h.of_tick ?regs ((programOrderMem_appliedTick notStore).trans h.mem)
    (hat.nextAt_of_not_taken h.applies notTaken) passes fun haccess => absurd haccess ?noAccess
  case regs => rw [word.programOrderRegs_appliedTick h.invariant hw, h.regs]
  case noAccess => exact not_or.2 ⟨notLoad, notStore⟩

/-- What the tick that executes an LW or an SW shares of the two: it retires, and EX latches the
reference's effective address and stored value. -/
theorem access_latched (h : Simulates imem s q) (word : AccessWord w a b o)
    (hw : s.idex.instruction = w) :
    branchTaken s = false ∧ Retires s.idex.instruction ∧
      (appliedTick s).exmem.aluResult = readReg q.x a + signExtend16 o ∧
      (appliedTick s).exmem.readRegB = readReg q.x b := by
  obtain ⟨notTaken, passes⟩ : branchTaken s = false ∧ Retires s.idex.instruction := by
    obtain hop | hop := word.opcode <;> simp [Retires, branchTaken, hw, hop]
  rw [word.appliedTick_exmem h.invariant hw, h.regs]
  exact ⟨notTaken, passes, rfl, rfl⟩

/-- The tick that executes an LW in bounds is the reference step. -/
theorem load_tick (h : Simulates imem s q) (hat : IdExAt s q.pc) (word : AccessWord w a b o)
    (hlw : op w = some .lw) (hw : s.idex.instruction = w)
    (hbounds : inBounds (readReg q.x a + signExtend16 o) = true) :
    Simulates imem (appliedTick s)
      { q with
        x := writeReg q.x b (q.mem.read (address (readReg q.x a + signExtend16 o)))
        pc := q.pc + 1 } := by
  obtain ⟨notTaken, passes, latched, -⟩ := h.access_latched word hw
  refine h.of_tick (registers_ext fun r => ?loaded)
    ((programOrderMem_appliedTick (by simp [hw, hlw])).trans h.mem)
    (hat.nextAt_of_not_taken h.applies notTaken) passes fun _ => latched ▸ hbounds
  case loaded =>
    rw [word.readReg_programOrderRegs_appliedTick_of_lw hlw h.invariant hw, h.regs, h.mem]
    by_cases hr : b = r
    · subst hr
      rw [if_pos rfl, readReg_writeReg_self]
      rfl
    · rw [if_neg hr, readReg_writeReg_of_ne _ _ (Ne.symm hr)]

/-- The tick that executes an SW in bounds is the reference step. -/
theorem store_tick (h : Simulates imem s q) (hat : IdExAt s q.pc) (word : AccessWord w a b o)
    (hsw : op w = some .sw) (hw : s.idex.instruction = w)
    (hbounds : inBounds (readReg q.x a + signExtend16 o) = true) :
    Simulates imem (appliedTick s)
      { q with
        mem := q.mem.write (address (readReg q.x a + signExtend16 o)) (readReg q.x b)
        pc := q.pc + 1 } := by
  obtain ⟨notTaken, passes, latched, data⟩ := h.access_latched word hw
  have moved : op (appliedTick s).exmem.instruction = some .sw := (congrArg op hw).trans hsw
  refine h.of_tick
    ((programOrderRegs_appliedTick_of_not_isSource (by simp [isSource, hw, hsw])).trans h.regs)
    ?stored (hat.nextAt_of_not_taken h.applies notTaken) passes fun _ => latched ▸ hbounds
  case stored => rw [programOrderMem, if_pos moved, appliedTick_dmem, h.mem, latched, data]

/-- The tick that executes a BEQ is the reference step: taken on equal registers, to the same
address. -/
theorem branch_tick (h : Simulates imem s q) (hat : IdExAt s q.pc) (word : ControlWord w a b o)
    (hbeq : op w = some .beq) (hw : s.idex.instruction = w) :
    Simulates imem (appliedTick s)
      { q with
        pc := if readReg q.x a = readReg q.x b then q.pc + 1 + o.toInt else q.pc + 1 } := by
  have taken_iff : branchTaken s = true ↔ readReg q.x a = readReg q.x b := by
    rw [word.branchTaken_iff_forward_eq hbeq hw, word.forward_eq_iff_programOrder_eq h.invariant hw,
      h.regs]
  refine h.of_inert_tick (by simp [isSource, hw, hbeq]) (by simp [accessesMemory, hw, hbeq])
    (by simp [Retires, hw, hbeq]) ?_
  split
  case isTrue heq => exact hat.nextAt_of_taken (taken_iff.2 heq) (word.idex_offset h.invariant hw)
  case isFalse hne =>
    exact hat.nextAt_of_not_taken h.applies (eq_false_of_ne_true (mt taken_iff.1 hne))

/-! ### The instructions that end the run -/

/-- An LW or an SW out of bounds faults in the tick after its execution, with the reference's
address. -/
theorem reaches_dataFault (h : Simulates imem s q) (word : AccessWord w a b o)
    (hw : s.idex.instruction = w) (hout : inBounds (readReg q.x a + signExtend16 o) = false) :
    Reaches s (EndsAs (.faulted (.dataAddressOutOfBounds (readReg q.x a + signExtend16 o)))) := by
  obtain ⟨notHalt, notIllegal⟩ := h.passes
  rw [← h.regs] at hout ⊢
  exact .of_step h.step_eq
    (.of_step (word.step_dataFault h.invariant hw hout notHalt notIllegal) (.now rfl))

/-- A HALT or an illegal word comes to MEM/WB, all older instructions retired and no younger one's
store made. -/
theorem reaches_memwb (h : Simulates imem s q) {P : State → Prop}
    (hop : op s.idex.instruction = some .halt ∨ op s.idex.instruction = none)
    (ends : ∀ t, t.status = .running → t.memwb.instruction = s.idex.instruction → t.x = q.x →
      t.dmem = q.mem → Reaches t P) : Reaches s P := by
  obtain ⟨noResult, notStore, noAccess⟩ : isSource s.idex.instruction = false ∧
      op s.idex.instruction ≠ some .sw ∧ ¬accessesMemory s.idex.instruction := by
    obtain hop | hop := hop <;> simp [isSource, accessesMemory, hop]
  have moved : (appliedTick s).exmem.instruction = s.idex.instruction := rfl
  have applies : TickApplies (appliedTick s) :=
    (h.noFetchFault.of_step h.step_eq).applies rfl h.passes fun haccess => absurd haccess noAccess
  refine .of_step h.step_eq (.of_step (step_applies applies) (ends _ rfl rfl ?x ?dmem))
  case x =>
    rw [appliedTick_x, ← h.regs, ← programOrderRegs_appliedTick_of_not_isSource noResult,
      programOrderRegs, moved, committed_of_not_isSource _ _ noResult]
  case dmem => rw [appliedTick_dmem, programOrderMem_appliedTick notStore, h.mem]

theorem reaches_halt (h : Simulates imem s q) (hop : op s.idex.instruction = some .halt) :
    Reaches s (EndsAs (.halted q)) :=
  h.reaches_memwb (.inl hop) fun _ running hw hx hdmem =>
    .of_step (step_halt running (hw ▸ hop)) (.now ⟨rfl, hx, hdmem⟩)

theorem reaches_illegalOpcode (h : Simulates imem s q) (hop : op s.idex.instruction = none) :
    Reaches s (EndsAs (.faulted (.illegalOpcode s.idex.instruction))) :=
  h.reaches_memwb (.inr hop) fun t running hw _ _ => by
    rw [← hw] at hop ⊢
    exact .of_step (step_illegal running hop) (.now rfl)

/-! ### One reference step -/

/-- The pipeline follows what the instruction in ID/EX means in sequence. -/
theorem follows_seqExec (h : Simulates imem s q) (hat : IdExAt s q.pc) (i : Instr)
    (hw : s.idex.instruction = encode i) : Follows imem s (seqExec i q) := by
  have hop : op s.idex.instruction = some i.mnemonic := by rw [hw, op_encode]
  cases i with
  | add a b u d => exact h.arith_tick hat (arithWord_add a b d u) hw
  | nand a b u d => exact h.arith_tick hat (arithWord_nand a b d u) hw
  | lw a b o =>
    dsimp only [seqExec]
    split
    case isTrue hbounds => exact h.load_tick hat (accessWord_lw a b o) (op_encode _) hw hbounds
    case isFalse hout =>
      exact h.reaches_dataFault (accessWord_lw a b o) hw (eq_false_of_ne_true hout)
  | sw a b o =>
    dsimp only [seqExec]
    split
    case isTrue hbounds => exact h.store_tick hat (accessWord_sw a b o) (op_encode _) hw hbounds
    case isFalse hout =>
      exact h.reaches_dataFault (accessWord_sw a b o) hw (eq_false_of_ne_true hout)
  | beq a b o => exact h.branch_tick hat (controlWord_beq a b o) (op_encode _) hw
  | jalr a b u => trivial
  | halt u => exact h.reaches_halt hop
  | noop u =>
    have notTaken := (no_stall_no_branchTaken_of_noop hop).2
    exact h.of_noop_tick hop (hat.nextAt_of_not_taken h.applies notTaken)

/-- The pipeline follows the reference step, an illegal word's included. -/
theorem follows_seqStep (h : Simulates imem s q) (hat : IdExAt s q.pc) :
    Follows imem s (seqStep imem q) := by
  have word : s.idex.instruction = imem.read q.pc.toNat := h.image ▸ hat.latch.word
  have lower := hat.latch.lower
  have upper := hat.latch.upper
  by_cases hop : op s.idex.instruction = none
  · rw [seqStep_of_illegal lower upper (word ▸ hop), ← word]
    exact h.reaches_illegalOpcode hop
  · obtain ⟨i, hi⟩ := (exists_decode_eq_ok_iff _).2 hop
    rw [seqStep_of_decode lower upper (word ▸ hi)]
    exact h.follows_seqExec hat i (encode_of_decode hi).symm

/-! ### A reference run -/

/-- The pipeline ends as the reference run ends, by induction on the reference's steps. -/
theorem reaches_endsAs_seqRun (h : Simulates imem s q) (n : Nat) :
    Reaches s (EndsAs (seqRun imem n q)) := by
  induction n generalizing s q with
  | zero => exact .now trivial
  | succ n ih =>
    refine h.reaches_of_idExAt fun t ht hat => ?_
    have follows := ht.follows_seqStep hat
    unfold seqRun
    generalize seqStep imem q = o at follows ⊢
    cases o with
    | next q' => exact .of_step ht.step_eq (ih follows)
    | halted q' => exact follows
    | faulted f => exact follows
    | excluded => exact .now trivial

end Simulates

end Sys2Proof.Machine

/-! The statements about the equivalence with the sequential reference. -/

namespace Sys2Proof.Machine

/-- The pipeline run of an image ends as each of its reference runs ends (R195). -/
theorem reaches_endsAs_of_bootState {image : List Word} (hfits : image.length ≤ 65536)
    (hfetch : NeverFaultsInFetch (bootState image)) (n : Nat) :
    Reaches (bootState image) (EndsAs (seqRun (imageMemory image) n (seqInit image))) :=
  (simulates_bootState hfits hfetch).reaches_endsAs_seqRun n

/-- Settles O59: by the simulation, the pipeline ends as the halting reference run does. -/
theorem pipelineHaltsWithTheReferenceState : Obligations.PipelineHaltsWithTheReferenceState := by
  intro image n q hfits hrun hfetch
  have ends := reaches_endsAs_of_bootState hfits hfetch n
  rw [hrun] at ends
  exact ends

/-- Settles O60: by the simulation, the pipeline ends as the faulting reference run does; that the
fault is no PcOutOfBounds follows from the pipeline's fetches. -/
theorem pipelineFaultsWithTheReferenceCause : Obligations.PipelineFaultsWithTheReferenceCause := by
  intro image n f hfits hrun _ hfetch
  have ends := reaches_endsAs_of_bootState hfits hfetch n
  rw [hrun] at ends
  exact ends

end Sys2Proof.Machine
